-- ==== Sys2Proof/Word.lean ====
section
/-! DEFINITION. The value widths of the block (00_scope R10, R11, R13): every value is unsigned and bit 0 is the least
significant. -/

namespace Sys2Proof

/-- A command word, a status value, an output item on the port: 32 bits (R11 CMDW, OUTW). -/
abbrev Word := BitVec 32

/-- A column mask, a colour channel, a byte of the pixel block: 8 bits (R10 CHANBITS). -/
abbrev Byte := BitVec 8

/-- A character code carried by `GCHR`: 24 bits (R11 CHARW). -/
abbrev CharCode := BitVec 24

/-- A colour `r ++ g ++ b` of three 8-bit channels (R14, R31). -/
abbrev Colour := BitVec 24

/-- The operand field `f` of a command word: bits 23:0 (R80). -/
abbrev OperandField := BitVec 24

end Sys2Proof
end

