-- ==== Sys2Proof/Config.lean ====
section
/-! DEFINITION. The parameters of the block: those the spec fixes (00_scope R10, R11) and the two it leaves open
(R12, 93_implementation_defined U1, U9), which are constants without a body. -/

namespace Sys2Proof.Config

/-- NGLYPH (R10): glyphs in a font, codes 0 to 127. -/
def nGlyph : Nat := 128

/-- PALN (R10): entries of a palette. -/
def palN : Nat := 16

/-- SHEET_W (R10): width of a sprite sheet. -/
def sheetW : Nat := 160

/-- FRAME_H (R10): rows of one frame of a sheet. -/
def frameH : Nat := 128

/-- MAX_H (R11): the largest cell height, and the bits of a column mask. -/
def maxH : Nat := 8

/-- MAX_IH (R11): the largest image height of `IBEGIN`. -/
def maxIH : Nat := 255

/-- NSLOT (R11): palette slots, 0 image, 1 reference, 2 + row override. -/
def nSlot : Nat := 130

/-- The order in which a host stores the two bytes of a `PAL` value (R12). -/
inductive ByteOrder where
  | little
  | big
  deriving DecidableEq, Repr, Inhabited

/-- MODE_INDEXED (R12, U1): an 8-bit value the spec leaves open; log entry 1. No body: a statement about it holds for
every value. -/
opaque modeIndexed : Byte

/-- OUT_BYTE_ORDER (R12, U9): left open and read by no rule of the block; log entry 2. -/
opaque outByteOrder : ByteOrder

end Sys2Proof.Config
end

