-- ==== Sys2Proof/Syntax.lean ====
section
/-! DEFINITION. The fifteen commands (30_encoding R83), one constructor per row of the opcode table, each operand at
the exact width of its field (R81, R82). -/

namespace Sys2Proof

/-- A command of GBM-CMD 1.0. The operand names are those of the formats of R81. -/
inductive Instr where
  | nop
  | reset
  | q565 (r g b : Byte)
  | qmask (r g b : Byte)
  | gbegin (a : Byte) (b : BitVec 16)
  | gchr (cc : CharCode)
  | geol
  | gend
  | palsel (p : Byte)
  | palw (r g b : Byte)
  | palclr (p : Byte)
  | ibegin (a : Byte) (b : BitVec 16)
  | ipix (idx : Byte)
  | rbegin (a : Byte) (b : BitVec 16)
  | rpix (idx : Byte)
  deriving DecidableEq, Repr

end Sys2Proof
end

