-- ==== Sys2Proof/WellFormed.lean ====
section
/-! DEFINITION. Which operand values a command's own range check admits (30_encoding R85). Every term of `Instr` is a
LEGAL command (R84), because its operands have exactly the widths of their fields; a term that is not well-formed here
is still encoded, decoded and executed, and raises the error its rule names. `GCHR` is not listed: whether a character
code of 128 or more is in range depends on the phase (R124, R128). -/

namespace Sys2Proof

/-- A cell size `GBEGIN` accepts: width 1 to 255, height 1 to 8 (R121 checks 2 and 3). -/
def cellSizeOk (a : Byte) (b : BitVec 16) : Bool :=
  a != 0 && b != 0 && b.toNat ≤ 8

/-- A slot that exists: 0 to 129 (R62, R151, R153). -/
def slotOk (p : Byte) : Bool :=
  p.toNat ≤ 129

/-- An image size `IBEGIN` accepts: even width, height at most 255 (R160 checks 3 and 4). -/
def imageSizeOk (a : Byte) (b : BitVec 16) : Bool :=
  a.toNat % 2 == 0 && b.toNat ≤ 255

/-- A sheet size `RBEGIN` accepts: width 160, height a non-zero multiple of 128 (R170 check 3). -/
def sheetSizeOk (a : Byte) (b : BitVec 16) : Bool :=
  a.toNat == 160 && b != 0 && b.toNat % 128 == 0

/-- A palette index a pixel may carry: 0 to 15 (R163, R172 check 2). -/
def pixelIndexOk (idx : Byte) : Bool :=
  idx.toNat ≤ 15

/-- The command's operands pass the range checks of its rule (R85). -/
def Instr.wellFormed : Instr → Bool
  | .nop => true
  | .reset => true
  | .q565 _ _ _ => true
  | .qmask _ _ _ => true
  | .gbegin a b => cellSizeOk a b
  | .gchr _ => true
  | .geol => true
  | .gend => true
  | .palsel p => slotOk p
  | .palw _ _ _ => true
  | .palclr p => slotOk p
  | .ibegin a b => imageSizeOk a b
  | .ipix idx => pixelIndexOk idx
  | .rbegin a b => sheetSizeOk a b
  | .rpix idx => pixelIndexOk idx

end Sys2Proof
end

