-- ==== Sys2Proof/Decode.lean ====
section
/-! DEFINITION. The command encoding (30_encoding R80 to R84): the decoder, total on all 2^32 words and rejecting by
name, and the encoder, both written from the formats of R81 and the opcode map of R83. -/

namespace Sys2Proof

/-- Why a word is illegal (R84). -/
inductive DecodeError where
  | unknownOpcode (op : Byte)
  | mustBeZero (op : Byte)
  deriving DecidableEq, Repr

/-- The six formats of R81, each holding the command its operands build. -/
inductive Format where
  | z (make : Instr)
  | c (make : CharCode → Instr)
  | d (make : Byte → BitVec 16 → Instr)
  | p (make : Byte → Instr)
  | t (make : Byte → Byte → Byte → Instr)
  | s (make : Byte → Instr)

/-- Bits 31:24 of a word (R80). -/
def opcodeField (w : Word) : Byte := w.extractLsb' 24 8

/-- Bits 23:0 of a word (R80). -/
def operandField (w : Word) : OperandField := w.extractLsb' 0 24

/-- The opcode map (R83): each opcode of the table with the format of its row. -/
def opcodeMap : List (Byte × Format) :=
  [ (0x00, .z .nop), (0x01, .z .reset),
    (0x10, .t .q565), (0x11, .t .qmask),
    (0x20, .d .gbegin), (0x21, .c .gchr), (0x22, .z .geol), (0x23, .z .gend),
    (0x30, .s .palsel), (0x31, .t .palw), (0x32, .s .palclr),
    (0x40, .d .ibegin), (0x41, .p .ipix),
    (0x50, .d .rbegin), (0x51, .p .rpix) ]

/-- The first row of an opcode. -/
def findRow : List (Byte × Format) → Byte → Option Format
  | [], _ => none
  | (o, fmt) :: rest, op => if op = o then some fmt else findRow rest op

/-- The row an opcode selects, if it is in the table (R83, R84). -/
def opcodeRow (op : Byte) : Option Format := findRow opcodeMap op

/-- Formats P and S: one 8-bit operand in bits 7:0, bits 23:8 must be zero (R81). -/
def readLowByte (op : Byte) (make : Byte → Instr) (f : OperandField) : Except DecodeError Instr :=
  if f.extractLsb' 8 16 = 0 then .ok (make (f.extractLsb' 0 8)) else .error (.mustBeZero op)

/-- The operands of a format cut from the operand field (R81, R82). -/
def readOperands (op : Byte) (fmt : Format) (f : OperandField) : Except DecodeError Instr :=
  match fmt with
  | .z make => if f = 0 then .ok make else .error (.mustBeZero op)
  | .c make => .ok (make f)
  | .d make => .ok (make (f.extractLsb' 16 8) (f.extractLsb' 0 16))
  | .p make => readLowByte op make f
  | .t make => .ok (make (f.extractLsb' 16 8) (f.extractLsb' 8 8) (f.extractLsb' 0 8))
  | .s make => readLowByte op make f

/-- Decode is total on all 2^32 words; a word that matches no row is illegal, and the answer says why (R84). -/
def decode (w : Word) : Except DecodeError Instr :=
  match opcodeRow (opcodeField w) with
  | none => .error (.unknownOpcode (opcodeField w))
  | some fmt => readOperands (opcodeField w) fmt (operandField w)

/-- The opcode of a command (R83, column `op`). -/
def opcode : Instr → Byte
  | .nop => 0x00
  | .reset => 0x01
  | .q565 _ _ _ => 0x10
  | .qmask _ _ _ => 0x11
  | .gbegin _ _ => 0x20
  | .gchr _ => 0x21
  | .geol => 0x22
  | .gend => 0x23
  | .palsel _ => 0x30
  | .palw _ _ _ => 0x31
  | .palclr _ => 0x32
  | .ibegin _ _ => 0x40
  | .ipix _ => 0x41
  | .rbegin _ _ => 0x50
  | .rpix _ => 0x51

/-- Format D: `a` in bits 23:16, `b` in bits 15:0 (R81). -/
def fieldD (a : Byte) (b : BitVec 16) : OperandField := a ++ b

/-- Format T: red in bits 23:16, green in 15:8, blue in 7:0 (R81). -/
def fieldT (r g b : Byte) : OperandField := r ++ g ++ b

/-- Formats P and S: the operand in bits 7:0 (R81). -/
def fieldLowByte (x : Byte) : OperandField := x.setWidth 24

/-- The operand field of a command (R81, R82). -/
def operands : Instr → OperandField
  | .nop => 0
  | .reset => 0
  | .q565 r g b => fieldT r g b
  | .qmask r g b => fieldT r g b
  | .gbegin a b => fieldD a b
  | .gchr cc => cc
  | .geol => 0
  | .gend => 0
  | .palsel p => fieldLowByte p
  | .palw r g b => fieldT r g b
  | .palclr p => fieldLowByte p
  | .ibegin a b => fieldD a b
  | .ipix idx => fieldLowByte idx
  | .rbegin a b => fieldD a b
  | .rpix idx => fieldLowByte idx

/-- The word of a command: `(op << 24) | f` (R87). -/
def encode (i : Instr) : Word := opcode i ++ operands i

/-- The one word a faulted block executes (R181, R192). -/
def resetWord : Word := 0x01000000

/-- The decoder on a word numbered as the opcode table numbers its bits: every command is one 32-bit word (R80), so the
bits above `nbits` are zero and a number of more than 32 bits is no command word. -/
def decodeTableWord (nbits w : Nat) : Option Instr :=
  if w % 2 ^ nbits < 2 ^ 32 then
    match decode (BitVec.ofNat 32 (w % 2 ^ nbits)) with
    | .ok i => some i
    | .error _ => none
  else none

/-- The mnemonic of a command (R83, R87). -/
def mnemonic : Instr → String
  | .nop => "NOP"
  | .reset => "RESET"
  | .q565 _ _ _ => "Q565"
  | .qmask _ _ _ => "QMASK"
  | .gbegin _ _ => "GBEGIN"
  | .gchr _ => "GCHR"
  | .geol => "GEOL"
  | .gend => "GEND"
  | .palsel _ => "PALSEL"
  | .palw _ _ _ => "PALW"
  | .palclr _ => "PALCLR"
  | .ibegin _ _ => "IBEGIN"
  | .ipix _ => "IPIX"
  | .rbegin _ _ => "RBEGIN"
  | .rpix _ => "RPIX"

/-- One row of the opcode map as R83 writes it: a word `w` selects the command iff `(w & mask) = match`. -/
structure OpcodeRow where
  name : String
  bits : Word
  mask : Word
  deriving DecidableEq, Repr

/-- The columns mnemonic, match and mask of R83. The decoder does not read this table; that the two agree is a statement
about both. -/
def opcodeTable : List OpcodeRow :=
  [ ⟨"NOP", 0x00000000, 0xFFFFFFFF⟩, ⟨"RESET", 0x01000000, 0xFFFFFFFF⟩, ⟨"Q565", 0x10000000, 0xFF000000⟩,
    ⟨"QMASK", 0x11000000, 0xFF000000⟩, ⟨"GBEGIN", 0x20000000, 0xFF000000⟩, ⟨"GCHR", 0x21000000, 0xFF000000⟩,
    ⟨"GEOL", 0x22000000, 0xFFFFFFFF⟩, ⟨"GEND", 0x23000000, 0xFFFFFFFF⟩ ] ++
  [ ⟨"PALSEL", 0x30000000, 0xFFFFFF00⟩, ⟨"PALW", 0x31000000, 0xFF000000⟩, ⟨"PALCLR", 0x32000000, 0xFFFFFF00⟩,
    ⟨"IBEGIN", 0x40000000, 0xFF000000⟩, ⟨"IPIX", 0x41000000, 0xFFFFFF00⟩, ⟨"RBEGIN", 0x50000000, 0xFF000000⟩,
    ⟨"RPIX", 0x51000000, 0xFFFFFF00⟩ ]

/-- A word selects a row (R83). -/
def OpcodeRow.selectedBy (row : OpcodeRow) (w : Word) : Bool := w &&& row.mask == row.bits

/-- The operands in the order of the format's fields from the most significant (R87). -/
def operandList : Instr → List Nat
  | .nop => []
  | .reset => []
  | .q565 r g b => [r.toNat, g.toNat, b.toNat]
  | .qmask r g b => [r.toNat, g.toNat, b.toNat]
  | .gbegin a b => [a.toNat, b.toNat]
  | .gchr cc => [cc.toNat]
  | .geol => []
  | .gend => []
  | .palsel p => [p.toNat]
  | .palw r g b => [r.toNat, g.toNat, b.toNat]
  | .palclr p => [p.toNat]
  | .ibegin a b => [a.toNat, b.toNat]
  | .ipix idx => [idx.toNat]
  | .rbegin a b => [a.toNat, b.toNat]
  | .rpix idx => [idx.toNat]

/-- The operand list of R87, separated by commas, each a decimal number. -/
def operandText : List Nat → String
  | [] => ""
  | [n] => toString n
  | n :: ns => toString n ++ ", " ++ operandText ns

/-- A command as R87 writes it: its mnemonic in capitals, then its operands. -/
def assembly (i : Instr) : String :=
  match operandList i with
  | [] => mnemonic i
  | ns => mnemonic i ++ " " ++ operandText ns

end Sys2Proof
end

