-- ==== Sys2Proof/Machine/State.lean ====
section
/-! DEFINITION. The architectural state (10_state R20 to R35), its value after reset (R50), and the reasons a step can
stop. Registers are grouped by the unit that owns them (R21, R22). -/

namespace Sys2Proof.Machine

/-- `GPH` (R22, R120). The value 3 never occurs (U11) and has no name (log 8). -/
inductive GlyphPhase where
  | gIdle
  | gHdr
  | gData
  deriving DecidableEq, Repr

/-- `HK`, the header kind of the header line being received (R22). -/
inductive HeaderKind where
  | hkNone
  | hkDone
  | hkEsc
  | hkHex
  deriving DecidableEq, Repr

/-- `IPH` and `RPH`: idle or active (R22). -/
inductive UnitPhase where
  | idle
  | active
  deriving DecidableEq, Repr

/-- `ERRKIND` (R22, R190). The codes 6 and 7 are never produced (U11) and have no name (log 8). -/
inductive ErrKind where
  | noError
  | parseError
  | encodingError
  | configError
  | preconditionError
  | commandError
  deriving DecidableEq, Repr

/-- The channel tag of an output item (R66). -/
inductive Channel where
  | font
  | pal
  | pix
  | rgb
  deriving DecidableEq, Repr

/-- One item of the output sequence: a channel and a 24-bit datum (R66). -/
structure OutItem where
  ch : Channel
  d : BitVec 24
  deriving DecidableEq, Repr

/-- What the host may do to the block (R223): present a command word, pull the reset pin, pop an output item, read a
status register. -/
inductive HostEvent where
  | command (w : Word)
  | resetPin
  | popItem
  | readStatus (n : BitVec 1)
  deriving DecidableEq, Repr

/-- Storage as (key, value) pairs, in one canonical form (`Memory.wf` in Machine/Ops.lean). With 8-bit values the pairs
are `Host.Cell`. -/
abbrev Memory (w : Nat) := List (Nat × BitVec w)

/-- The registers of the glyph unit (R22). -/
structure GlyphUnit where
  gw : BitVec 8
  gh : BitVec 4
  gph : GlyphPhase
  hk : HeaderKind
  gcode : BitVec 7
  grow : BitVec 4
  gpos : BitVec 8
  line : BitVec 32
  deriving DecidableEq, Repr

/-- The registers of the image unit (R22). -/
structure ImageUnit where
  iw : BitVec 8
  ih : BitVec 8
  iph : UnitPhase
  ix : BitVec 8
  iy : BitVec 8
  pxl1 : BitVec 4
  deriving DecidableEq, Repr

/-- The registers of the remap unit (R22). -/
structure RemapUnit where
  rh : BitVec 16
  rph : UnitPhase
  rx : BitVec 8
  ry : BitVec 16
  deriving DecidableEq, Repr

/-- The palette store (R22, R31): the load pointer, the 130 presence bits, and the colours by key 16 * slot + entry. -/
structure PaletteUnit where
  psel : BitVec 8
  pidx : BitVec 4
  pselv : Bool
  present : BitVec 130
  palmem : Memory 24
  deriving DecidableEq, Repr

/-- The error registers (R22, R190). -/
structure ErrorRegs where
  kind : ErrKind
  info : Word
  deriving DecidableEq, Repr

/-- The whole state. `font` holds the column masks by key 256 * code + column (R30); `out` is the output sequence, oldest
item first (R66). `popped` and `input` are the host's side of the ports (R223), the model's own fields (log 6, log 7):
how many items of `out` the host has taken, and the events the host has presented and the block has not yet served,
oldest first. -/
structure State where
  glyph : GlyphUnit
  font : Memory 8
  image : ImageUnit
  remap : RemapUnit
  pal : PaletteUnit
  err : ErrorRegs
  out : List OutItem
  popped : Nat
  input : List HostEvent
  deriving DecidableEq, Repr

/-- Why a step stops. Every error the spec gives the block is state (`ERRKIND`), not one of these; each of these is met
only in states that no run from reset reaches (R35). -/
inductive Fault where
  /-- Raised by `IBEGIN` and `RPIX` where they read an entry of slot `slot` that nothing has written (R50, U2: a model
  should give such an entry no value and treat a read of it as a fault). Safe: the model stops; log 3. -/
  | paletteUnwritten (slot : Nat)
  /-- Raised by `PALW` where `PSEL` names a slot above 129, which does not exist (R62). Safe: the model stops; log 9. -/
  | noSuchPaletteSlot (slot : Nat)
  /-- Raised by `GCHR` on a data line where `GROW` is above 7: no such row bit exists (R61). Safe: the model stops;
  log 9. -/
  | noSuchFontRow (row : Nat)
  deriving DecidableEq, Repr

/-- Why an instruction is refused. -/
inductive Refusal where
  /-- Raised by an arm of `exec` whose instruction has no meaning yet; no arm of this model does so. Safe. -/
  | notModelled (mnemonic : String)
  deriving DecidableEq, Repr

/-- The outcome of a step of this machine. -/
abbrev Result := Host.Outcome State Fault Refusal

/-- The glyph unit after reset (R50). -/
def GlyphUnit.reset : GlyphUnit :=
  { gw := 0, gh := 0, gph := .gIdle, hk := .hkNone, gcode := 0, grow := 0, gpos := 0, line := 0 }

/-- The image unit after reset (R50). -/
def ImageUnit.reset : ImageUnit :=
  { iw := 0, ih := 0, iph := .idle, ix := 0, iy := 0, pxl1 := 0 }

/-- The remap unit after reset (R50). -/
def RemapUnit.reset : RemapUnit :=
  { rh := 0, rph := .idle, rx := 0, ry := 0 }

/-- The palette store after reset (R50): every slot absent; `mem` is what `PALMEM` holds, which reset does not change. -/
def PaletteUnit.reset (mem : Memory 24) : PaletteUnit :=
  { psel := 0, pidx := 0, pselv := false, present := 0, palmem := mem }

/-- The error registers after reset (R50). -/
def ErrorRegs.reset : ErrorRegs :=
  { kind := .noError, info := 0 }

/-- The machine right after its first reset (R50, R212): no palette entry written (log 3), nothing emitted (log 6),
nothing presented by the host (log 7). -/
def State.reset : State :=
  { glyph := GlyphUnit.reset, font := [], image := ImageUnit.reset, remap := RemapUnit.reset,
    pal := PaletteUnit.reset [], err := ErrorRegs.reset, out := [], popped := 0, input := [] }

end Sys2Proof.Machine
end

