-- ==== Sys2Proof/Machine/Flags.lean ====
section
/-! DEFINITION. The flag-like state and the status port (10_state R25 to R29). The block has no condition codes (R25), so
no command computes a flag; what stands here is the code of each phase and error kind and what the host reads. -/

namespace Sys2Proof.Machine

/-- The code of `GPH` (R22). -/
def GlyphPhase.code : GlyphPhase → BitVec 2
  | .gIdle => 0
  | .gHdr => 1
  | .gData => 2

/-- The code of `HK` (R22). -/
def HeaderKind.code : HeaderKind → BitVec 2
  | .hkNone => 0
  | .hkDone => 1
  | .hkEsc => 2
  | .hkHex => 3

/-- The code of `IPH` and `RPH` (R22). -/
def UnitPhase.code : UnitPhase → BitVec 1
  | .idle => 0
  | .active => 1

/-- The code of `ERRKIND` (R190). -/
def ErrKind.code : ErrKind → BitVec 3
  | .noError => 0
  | .parseError => 1
  | .encodingError => 2
  | .configError => 3
  | .preconditionError => 4
  | .commandError => 5

/-- The block is faulted: `ERRKIND != 0` (R25, R192). -/
def State.faulted (s : State) : Bool := s.err.kind != .noError

/-- The `fault` line: level, high while `ERRKIND != 0` (R29, R196). -/
def State.faultLine (s : State) : Bool := s.faulted

/-- `PRESENT[slot]` (R31); a slot that does not exist is never present. -/
def State.isPresent (s : State) (slot : Nat) : Bool := s.pal.present.getLsbD slot

/-- Status register 0, `STATUS`, field by field from bit 31 down to bit 0 (R27). -/
def State.status (s : State) : Word :=
  (0 : BitVec 21) ++ BitVec.ofBool (s.isPresent 1) ++ BitVec.ofBool (s.isPresent 0) ++ BitVec.ofBool s.pal.pselv
    ++ s.remap.rph.code ++ s.image.iph.code ++ s.glyph.gph.code ++ (0 : BitVec 1) ++ s.err.kind.code

/-- The status port: register 0 is `STATUS`, register 1 is `ERRINFO`; a read changes no state (R26, R63). -/
def State.statusPort (s : State) (n : BitVec 1) : Word :=
  if n = 0 then s.status else s.err.info

/-- A finished run leaves the block quiescent: no fault, every unit idle, no load open (R222). -/
def State.quiescent (s : State) : Bool :=
  s.err.kind == .noError && s.glyph.gph == .gIdle && s.image.iph == .idle && s.remap.rph == .idle && !s.pal.pselv

end Sys2Proof.Machine
end

