-- ==== Sys2Proof/Machine/Operands.lean ====
section
/-! DEFINITION. The pure functions of 00_scope R16 and the 32-bit info values of 60_exceptions R190. Every operand of the
block is an immediate field of its command word (R82), so there is no other operand form. -/

namespace Sys2Proof.Machine

/-- Red, bits 23:16 of a colour (R14). -/
def redOf (c : Colour) : Byte := c.extractLsb' 16 8

/-- Green, bits 15:8 of a colour (R14). -/
def greenOf (c : Colour) : Byte := c.extractLsb' 8 8

/-- Blue, bits 7:0 of a colour (R14). -/
def blueOf (c : Colour) : Byte := c.extractLsb' 0 8

/-- The colour `r ++ g ++ b` (R14, R152). -/
def colour (r g b : Byte) : Colour := r ++ g ++ b

/-- R110: the RGB565 value of a triple, red in bits 15:11, green in 10:5, blue in 4:0. -/
def q565 (r g b : Byte) : BitVec 16 :=
  ((r.setWidth 16 >>> 3) <<< 11) ||| ((g.setWidth 16 >>> 2) <<< 5) ||| (b.setWidth 16 >>> 3)

/-- R112: the 5/6/5 mask of a triple, carried as `r ++ g ++ b`. -/
def qmask (r g b : Byte) : Colour :=
  colour (r &&& 0xF8) (g &&& 0xFC) (b &&& 0xF8)

/-- R126: the value of a hexadecimal digit, undefined for every other code. -/
def hexval (cc : CharCode) : Option (BitVec 4) :=
  if 0x30 ≤ cc.toNat ∧ cc.toNat ≤ 0x39 then some (BitVec.ofNat 4 (cc.toNat - 0x30))
  else if 0x41 ≤ cc.toNat ∧ cc.toNat ≤ 0x46 then some (BitVec.ofNat 4 (cc.toNat - 0x41 + 10))
  else if 0x61 ≤ cc.toNat ∧ cc.toNat ≤ 0x66 then some (BitVec.ofNat 4 (cc.toNat - 0x61 + 10))
  else none

/-- R128: the characters `X` and `x` are ink. -/
def ink (cc : CharCode) : Bool := cc == 0x58 || cc == 0x78

/-- R190: `(y << 16) | x`, the info of a pixel error (y in 31:16, x in 7:0) and, with height and width for y and x, of a
size error. -/
def pairInfo (y : BitVec 16) (x : Byte) : Word :=
  (y.setWidth 32 <<< 16) ||| x.setWidth 32

/-- R163, R68: the byte of a pixel pair, the even pixel in the high nibble. -/
def packPair (px1 px2 : BitVec 4) : Byte :=
  (px1.setWidth 8 <<< 4) ||| px2.setWidth 8

end Sys2Proof.Machine
end

