-- ==== Sys2Proof/Machine/Ops.lean ====
section
/-! DEFINITION. The shared operations: raising an error and leaving the faulted state by reset (60_exceptions R191, R192,
R195), emitting (00_scope R15), and the reads and writes of the font table and the palette store (20_memory R61, R62). -/

namespace Sys2Proof.Machine

/-! ### Sparse storage -/

/-- The value listed under a key, if any. -/
def memLookup {w : Nat} : Memory w → Nat → Option (BitVec w)
  | [], _ => none
  | (b, x) :: rest, a => if a = b then some x else memLookup rest a

/-- List a value under a key, keeping the keys rising. -/
def memInsert {w : Nat} : Memory w → Nat → BitVec w → Memory w
  | [], a, v => [(a, v)]
  | (b, x) :: rest, a, v =>
    if a < b then (a, v) :: (b, x) :: rest
    else if a = b then (a, v) :: rest
    else (b, x) :: memInsert rest a v

/-- Take a key off the list. -/
def memErase {w : Nat} : Memory w → Nat → Memory w
  | [], _ => []
  | (b, x) :: rest, a => if a = b then rest else (b, x) :: memErase rest a

/-- What is stored at a key; `d` is what an unlisted key reads as. -/
def Memory.read {w : Nat} (d : Option (BitVec w)) (m : Memory w) (a : Nat) : Option (BitVec w) :=
  match memLookup m a with
  | some v => some v
  | none => d

/-- Store a value at a key; a value an unlisted key already reads as is not listed. -/
def Memory.write {w : Nat} (d : Option (BitVec w)) (m : Memory w) (a : Nat) (v : BitVec w) : Memory w :=
  if some v = d then memErase m a else memInsert m a v

/-- The canonical form: keys strictly rising, and no entry equal to what an unlisted key reads as. -/
abbrev Memory.wf {w : Nat} (d : Option (BitVec w)) (m : Memory w) : Prop :=
  m.Pairwise (fun x y => x.1 < y.1) ∧ ∀ c ∈ m, some c.2 ≠ d

/-! ### The font table -/

/-- An unlisted column mask reads 0: the font is all zero from reset and from `GBEGIN` on (R30, R50). -/
def fontUnlisted : Option Byte := some 0

/-- The key of column `c` of glyph `k` (log 12). -/
def fontKey (k c : Nat) : Nat := 256 * k + c

/-- `FONT[k][c]` (R30). -/
def fontMask (m : Memory 8) (k c : Nat) : Byte :=
  (Memory.read fontUnlisted m (fontKey k c)).getD 0

/-- A mask with row `r` set or cleared (R67: bit `r` is row `r`). -/
def setRow (mask : Byte) (r : Nat) (bit : Bool) : Byte :=
  if bit then mask ||| BitVec.twoPow 8 r else mask &&& ~~~ BitVec.twoPow 8 r

/-- `FONT[k][c][r] <- bit` (R61, R128). -/
def fontWriteBit (m : Memory 8) (k c r : Nat) (bit : Bool) : Memory 8 :=
  Memory.write fontUnlisted m (fontKey k c) (setRow (fontMask m k c) r bit)

/-! ### The palette store -/

/-- A palette entry nothing has written has no value (R50, U2; log 3). -/
def palUnlisted : Option Colour := none

/-- The key of entry `e` of slot `slot` (log 12). -/
def palKey (slot e : Nat) : Nat := 16 * slot + e

/-- `PALMEM[slot][e]`, if something has written it (R31, R50). -/
def palEntry (m : Memory 24) (slot e : Nat) : Option Colour :=
  Memory.read palUnlisted m (palKey slot e)

/-- `PALMEM[slot][e] <- c` (R152). -/
def palWrite (m : Memory 24) (slot e : Nat) (c : Colour) : Memory 24 :=
  Memory.write palUnlisted m (palKey slot e) c

/-- The values of a list of reads, if all of them have one. -/
def allSome {α : Type} : List (Option α) → Option (List α)
  | [] => some []
  | none :: _ => none
  | some x :: rest =>
    match allSome rest with
    | some xs => some (x :: xs)
    | none => none

/-- The sixteen entries of a slot, in palette order 0 to 15 (R161). -/
def palColours (m : Memory 24) (slot : Nat) : Option (List Colour) :=
  allSome ((List.range Config.palN).map (palEntry m slot))

/-- `PRESENT[slot] <- bit` (R31). -/
def setPresent (p : BitVec 130) (slot : Nat) (bit : Bool) : BitVec 130 :=
  if bit then p ||| BitVec.twoPow 130 slot else p &&& ~~~ BitVec.twoPow 130 slot

/-- R150: slot 0 is busy while the image unit is active, every other slot while the remap unit is. -/
def State.busy (s : State) (slot : Nat) : Bool :=
  if slot = 0 then s.image.iph == .active else s.remap.rph == .active

/-- R172: the palette a row-within-frame uses: its override where one is present, else the reference palette. -/
def State.activeSlot (s : State) (py : Nat) : Nat :=
  if s.isPresent (2 + py) then 2 + py else 1

/-! ### Output and errors -/

/-- `emit`: append items to the end of the output sequence (R15, R66). -/
def State.emit (s : State) (items : List OutItem) : State :=
  { s with out := s.out ++ items }

/-- An item of a byte-wide channel: data bits above the meaningful ones are 0 (R66). -/
def byteItem (ch : Channel) (v : Byte) : OutItem := { ch := ch, d := v.setWidth 24 }

/-- A `PAL` item: one RGB565 value (R66). -/
def palItem (v : BitVec 16) : OutItem := { ch := .pal, d := v.setWidth 24 }

/-- An `RGB` item: red, green, blue from the top byte down (R66). -/
def rgbItem (c : Colour) : OutItem := { ch := .rgb, d := c }

/-- What `raise K(info)` writes: `ERRKIND` and `ERRINFO`, nothing else (R191). -/
def State.recordError (s : State) (k : ErrKind) (info : Word) : State :=
  { s with err := { kind := k, info := info } }

/-- `raise K(info)`: the command ends with the error recorded and no other effect (R15, R191). A
`CommandError` carries the command word, which a meaning computes as `encode` of its own command (R189; log 11). -/
def raise (k : ErrKind) (info : Word) (s : State) : Result :=
  .next (s.recordError k info)

/-- A faulted block discards the command: it writes no state and emits nothing (R192; log 10). -/
def unlessFaulted (s : State) (body : Result) : Result :=
  if s.faulted then .next s else body

/-- Reset, by the pin or by `RESET` (R50, R210): the one way out of the faulted state (R195). Every register, flag, the
font table and the presence bits take their reset values; `PALMEM`, `OUT` and the host's side of the ports stay. -/
def State.toReset (s : State) : State :=
  { s with
    glyph := GlyphUnit.reset, font := [], image := ImageUnit.reset, remap := RemapUnit.reset,
    pal := PaletteUnit.reset s.pal.palmem, err := ErrorRegs.reset }

/-- The host takes the oldest item it has not taken; with none there, nothing happens (R223; log 6). -/
def State.popOne (s : State) : State :=
  { s with popped := if s.popped < s.out.length then s.popped + 1 else s.popped }

end Sys2Proof.Machine
end

