-- ==== Sys2Proof/Machine/Control.lean ====
section
/-! DEFINITION. The control commands (45_control): `NOP` and `RESET`. -/

namespace Sys2Proof.Machine

/-- R180: no state is written and nothing is emitted, in every phase. -/
def execNop (s : State) : Result :=
  unlessFaulted s (.next s)

/-- R181: the reset state of R50; the only command a faulted block executes. -/
def execReset (s : State) : Result :=
  .next s.toReset

end Sys2Proof.Machine
end

