-- ==== Sys2Proof/Machine/Glyph.lean ====
section
/-! DEFINITION. The glyph unit (41_glyph): `GBEGIN`, `GCHR`, `GEOL`, `GEND`. -/

namespace Sys2Proof.Machine

/-- R122: every `ParseError` of `GCHR`, `GEOL` and `GEND` carries the current `LINE`. -/
def raiseAtLine (s : State) : Result :=
  raise .parseError s.glyph.line s

/-- R121. -/
def execGbegin (a : Byte) (b : BitVec 16) (s : State) : Result :=
  unlessFaulted s <|
    if s.glyph.gph ≠ .gIdle then raise .commandError (encode (.gbegin a b)) s
    else if a = 0 ∨ b = 0 then raise .parseError 1 s
    else if 8 < b.toNat then raise .parseError 1 s
    else .next { s with
      font := []
      glyph :=
        { gw := a, gh := b.setWidth 4, gph := .gHdr, hk := .hkNone, gcode := 0, grow := 0, gpos := 0, line := 2 } }

/-- R124: the header's first character. -/
def gchrFirst (cc : CharCode) (s : State) : Result :=
  if cc = 0x23 then .next { s with glyph := { s.glyph with hk := .hkEsc } }
  else if 128 ≤ cc.toNat then raiseAtLine s
  else .next { s with glyph := { s.glyph with gcode := cc.setWidth 7, hk := .hkDone } }

/-- R125: the character after a leading `#`. -/
def gchrAfterHash (cc : CharCode) (s : State) : Result :=
  if cc = 0x23 then .next { s with glyph := { s.glyph with gcode := 35, hk := .hkDone } }
  else
    match hexval cc with
    | some h => .next { s with glyph := { s.glyph with gcode := h.setWidth 7, hk := .hkHex } }
    | none => raiseAtLine s

/-- R126: a later character of a hex escape; the value is computed exactly before it is checked. -/
def gchrHexDigit (cc : CharCode) (s : State) : Result :=
  match hexval cc with
  | none => raiseAtLine s
  | some h =>
    if 128 ≤ s.glyph.gcode.toNat * 16 + h.toNat then raiseAtLine s
    else .next { s with glyph := { s.glyph with gcode := BitVec.ofNat 7 (s.glyph.gcode.toNat * 16 + h.toNat) } }

/-- R124 to R127: a character of a header line, by `HK`. -/
def gchrHeader (cc : CharCode) (s : State) : Result :=
  match s.glyph.hk with
  | .hkNone => gchrFirst cc s
  | .hkEsc => gchrAfterHash cc s
  | .hkHex => gchrHexDigit cc s
  | .hkDone => .next s

/-- R128: a character of a data line writes one bit, a 0 too (log 13); characters past column `GW` are ignored. A row above 7 does not
exist (R61; no run from reset reaches one, R35). -/
def gchrData (cc : CharCode) (s : State) : Result :=
  if s.glyph.gpos.toNat < s.glyph.gw.toNat then
    if s.glyph.grow.toNat < Config.maxH then
      .next { s with
        font := fontWriteBit s.font s.glyph.gcode.toNat s.glyph.gpos.toNat s.glyph.grow.toNat (ink cc)
        glyph := { s.glyph with gpos := s.glyph.gpos + 1 } }
    else .fault (.noSuchFontRow s.glyph.grow.toNat)
  else .next s

/-- R123. -/
def execGchr (cc : CharCode) (s : State) : Result :=
  unlessFaulted s <|
    match s.glyph.gph with
    | .gIdle => raise .commandError (encode (.gchr cc)) s
    | .gHdr => gchrHeader cc s
    | .gData => gchrData cc s

/-- R129 point 2: the end of a header line. -/
def geolHeader (s : State) : Result :=
  match s.glyph.hk with
  | .hkNone => raiseAtLine s
  | .hkEsc => raiseAtLine s
  | .hkDone | .hkHex =>
    .next { s with
      glyph := { s.glyph with gph := .gData, grow := 0, gpos := 0, hk := .hkNone, line := s.glyph.line + 1 } }

/-- R130: the end of a data line. -/
def geolData (s : State) : Result :=
  if s.glyph.gpos.toNat < s.glyph.gw.toNat then raiseAtLine s
  else if s.glyph.grow.toNat + 1 = s.glyph.gh.toNat then
    .next { s with glyph := { s.glyph with gpos := 0, line := s.glyph.line + 1, grow := 0, gph := .gHdr } }
  else
    .next { s with glyph := { s.glyph with gpos := 0, line := s.glyph.line + 1, grow := s.glyph.grow + 1 } }

/-- R129. -/
def execGeol (s : State) : Result :=
  unlessFaulted s <|
    match s.glyph.gph with
    | .gIdle => raise .commandError (encode .geol) s
    | .gHdr => geolHeader s
    | .gData => geolData s

/-- The columns of one glyph, 0 to `w - 1` (R131). -/
def glyphColumns (m : Memory 8) (w k : Nat) : List Byte :=
  (List.range w).map (fontMask m k)

/-- The font block (R93, R131): width, height, then 128 groups of `w` column masks. -/
def fontBlock (m : Memory 8) (w : Byte) (h : BitVec 4) : List Byte :=
  w :: h.setWidth 8 :: (List.range Config.nGlyph).flatMap (glyphColumns m w.toNat)

/-- R131. -/
def execGend (s : State) : Result :=
  unlessFaulted s <|
    match s.glyph.gph with
    | .gIdle => raise .commandError (encode .gend) s
    | .gData => raiseAtLine s
    | .gHdr =>
      if s.glyph.hk ≠ .hkNone then raiseAtLine s
      else
        .next ({ s with glyph := { s.glyph with gph := .gIdle } }.emit
          ((fontBlock s.font s.glyph.gw s.glyph.gh).map (byteItem .font)))

end Sys2Proof.Machine
end

