-- ==== Sys2Proof/Machine/Image.lean ====
section
/-! DEFINITION. The image unit, the nibble packer (43_image): `IBEGIN`, `IPIX`. -/

namespace Sys2Proof.Machine

/-- The metadata header of the pixel block (R95, R161). -/
def pixelHeader (width height : Byte) : List Byte :=
  [width, height, 1, 0, 0, 0, Config.modeIndexed, 0]

/-- What `IBEGIN` emits (R161): the palette block, then the metadata header. -/
def imageItems (colours : List Colour) (width height : Byte) : List OutItem :=
  colours.map (fun c => palItem (q565 (redOf c) (greenOf c) (blueOf c)))
    ++ (pixelHeader width height).map (byteItem .pix)

/-- The image unit after a good `IBEGIN` (R160): an image with no pixel leaves it idle. -/
def imageOpened (a : Byte) (b : BitVec 16) : ImageUnit :=
  { iw := a, ih := b.setWidth 8, ix := 0, iy := 0, pxl1 := 0
    iph := if a ≠ 0 ∧ b ≠ 0 then .active else .idle }

/-- R160. -/
def execIbegin (a : Byte) (b : BitVec 16) (s : State) : Result :=
  unlessFaulted s <|
    if s.image.iph = .active then raise .commandError (encode (.ibegin a b)) s
    else if s.isPresent 0 = false then raise .commandError (encode (.ibegin a b)) s
    else if a.toNat % 2 = 1 then raise .encodingError (pairInfo b a) s
    else if Config.maxIH < b.toNat then raise .encodingError (pairInfo b a) s
    else
      match palColours s.pal.palmem 0 with
      | some colours =>
        .next ({ s with image := imageOpened a b }.emit (imageItems colours a (b.setWidth 8)))
      | none => .fault (.paletteUnwritten 0)

/-- The advance of `IPIX` (R163): to the next pixel in raster order; the last one ends the image. -/
def imageAdvance (u : ImageUnit) : ImageUnit :=
  if u.ix.toNat + 1 = u.iw.toNat then
    if u.iy.toNat + 1 = u.ih.toNat then { u with ix := 0, iy := 0, iph := .idle }
    else { u with ix := 0, iy := u.iy + 1 }
  else { u with ix := u.ix + 1 }

/-- R163. -/
def execIpix (idx : Byte) (s : State) : Result :=
  unlessFaulted s <|
    if s.image.iph = .idle then raise .commandError (encode (.ipix idx)) s
    else if 15 < idx.toNat then
      raise .encodingError (pairInfo (s.image.iy.setWidth 16) s.image.ix) s
    else if s.image.ix.toNat % 2 = 0 then
      .next { s with image := imageAdvance { s.image with pxl1 := idx.setWidth 4 } }
    else
      .next ({ s with image := imageAdvance s.image }.emit
        [byteItem .pix (packPair s.image.pxl1 (idx.setWidth 4))])

end Sys2Proof.Machine
end

