-- ==== Sys2Proof/Machine/Palette.lean ====
section
/-! DEFINITION. The palette store (42_palette): `PALSEL`, `PALW`, `PALCLR`. -/

namespace Sys2Proof.Machine

/-- R151: open a load of slot `p`; the slot is absent until its sixteenth `PALW`. -/
def execPalsel (p : Byte) (s : State) : Result :=
  unlessFaulted s <|
    if 129 < p.toNat then raise .commandError (encode (.palsel p)) s
    else if s.busy p.toNat then raise .commandError (encode (.palsel p)) s
    else .next { s with
      pal := { s.pal with psel := p, pidx := 0, pselv := true, present := setPresent s.pal.present p.toNat false } }

/-- The store after the entry `(PSEL, PIDX)` is written: the sixteenth entry makes the slot present and closes the load,
an earlier one moves the pointer on (R152). -/
def palStored (u : PaletteUnit) (c : Colour) : PaletteUnit :=
  if u.pidx = 15 then
    { u with
      palmem := palWrite u.palmem u.psel.toNat u.pidx.toNat c
      present := setPresent u.present u.psel.toNat true
      pselv := false
      pidx := 0 }
  else
    { u with
      palmem := palWrite u.palmem u.psel.toNat u.pidx.toNat c
      pidx := u.pidx + 1 }

/-- R152. A slot above 129 does not exist (R62; no run from reset opens one, R35). -/
def execPalw (r g b : Byte) (s : State) : Result :=
  unlessFaulted s <|
    if s.pal.pselv = false then raise .commandError (encode (.palw r g b)) s
    else if s.busy s.pal.psel.toNat then raise .commandError (encode (.palw r g b)) s
    else if s.pal.psel.toNat < Config.nSlot then .next { s with pal := palStored s.pal (colour r g b) }
    else .fault (.noSuchPaletteSlot s.pal.psel.toNat)

/-- R153: mark slot `p` absent; an open load of that slot is abandoned. -/
def execPalclr (p : Byte) (s : State) : Result :=
  unlessFaulted s <|
    if 129 < p.toNat then raise .commandError (encode (.palclr p)) s
    else if s.busy p.toNat then raise .commandError (encode (.palclr p)) s
    else .next { s with
      pal := { s.pal with
        present := setPresent s.pal.present p.toNat false
        pselv := if s.pal.pselv = true ∧ s.pal.psel = p then false else s.pal.pselv } }

end Sys2Proof.Machine
end

