-- ==== Sys2Proof/Machine/Quantizer.lean ====
section
/-! DEFINITION. The quantizer unit (40_quantizer): `Q565` and `QMASK`. -/

namespace Sys2Proof.Machine

/-- R111: emit the RGB565 value of the triple; legal in every phase of every unit, no state written. -/
def execQ565 (r g b : Byte) (s : State) : Result :=
  unlessFaulted s (.next (s.emit [palItem (q565 r g b)]))

/-- R113: emit the masked triple; legal in every phase, no state written. -/
def execQmask (r g b : Byte) (s : State) : Result :=
  unlessFaulted s (.next (s.emit [rgbItem (qmask r g b)]))

end Sys2Proof.Machine
end

