-- ==== Sys2Proof/Machine/Remap.lean ====
section
/-! DEFINITION. The remap unit, the band remapper's datapath (44_remap): `RBEGIN`, `RPIX`. -/

namespace Sys2Proof.Machine

/-- R170. -/
def execRbegin (a : Byte) (b : BitVec 16) (s : State) : Result :=
  unlessFaulted s <|
    if s.remap.rph = .active then raise .commandError (encode (.rbegin a b)) s
    else if s.isPresent 1 = false then raise .configError 1 s
    else if a.toNat ≠ Config.sheetW ∨ b = 0 ∨ b.toNat % Config.frameH ≠ 0 then
      raise .preconditionError (pairInfo b a) s
    else .next { s with remap := { rh := b, rph := .active, rx := 0, ry := 0 } }

/-- The advance of `RPIX` (R173). -/
def remapAdvance (u : RemapUnit) : RemapUnit :=
  if u.rx.toNat + 1 = Config.sheetW then
    if u.ry.toNat + 1 = u.rh.toNat then { u with rx := 0, ry := 0, rph := .idle }
    else { u with rx := 0, ry := u.ry + 1 }
  else { u with rx := u.rx + 1 }

/-- The row-within-frame of the next pixel (R17, R172). -/
def rowInFrame (u : RemapUnit) : Nat := u.ry.toNat % Config.frameH

/-- R172. -/
def execRpix (idx : Byte) (s : State) : Result :=
  unlessFaulted s <|
    if s.remap.rph = .idle then raise .commandError (encode (.rpix idx)) s
    else if 15 < idx.toNat then raise .encodingError (pairInfo s.remap.ry s.remap.rx) s
    else
      match palEntry s.pal.palmem (s.activeSlot (rowInFrame s.remap)) idx.toNat with
      | some c =>
        .next ({ s with remap := remapAdvance s.remap }.emit
          [rgbItem (qmask (redOf c) (greenOf c) (blueOf c))])
      | none => .fault (.paletteUnwritten (s.activeSlot (rowInFrame s.remap)))

end Sys2Proof.Machine
end

