-- ==== Sys2Proof/Machine/Dispatch.lean ====
section
/-! DEFINITION. One arm per command, each one direct call of that command's meaning. -/

namespace Sys2Proof.Machine

def exec (i : Instr) (s : State) : Host.Outcome State Fault Refusal :=
  match i with
  -- 45_control
  | .nop => Sys2Proof.Machine.execNop s
  | .reset => Sys2Proof.Machine.execReset s
  -- 40_quantizer
  | .q565 r g b => Sys2Proof.Machine.execQ565 r g b s
  | .qmask r g b => Sys2Proof.Machine.execQmask r g b s
  -- 41_glyph
  | .gbegin a b => Sys2Proof.Machine.execGbegin a b s
  | .gchr cc => Sys2Proof.Machine.execGchr cc s
  | .geol => Sys2Proof.Machine.execGeol s
  | .gend => Sys2Proof.Machine.execGend s
  -- 42_palette
  | .palsel p => Sys2Proof.Machine.execPalsel p s
  | .palw r g b => Sys2Proof.Machine.execPalw r g b s
  | .palclr p => Sys2Proof.Machine.execPalclr p s
  -- 43_image
  | .ibegin a b => Sys2Proof.Machine.execIbegin a b s
  | .ipix idx => Sys2Proof.Machine.execIpix idx s
  -- 44_remap
  | .rbegin a b => Sys2Proof.Machine.execRbegin a b s
  | .rpix idx => Sys2Proof.Machine.execRpix idx s

end Sys2Proof.Machine
end

