-- ==== Sys2Proof/Machine/Fetch.lean ====
section
/-! DEFINITION. Serving the oldest host event (70_reset_and_hazards R223): the block takes the next word the host
presents, discards it undecoded while faulted unless it is exactly the `RESET` word (R192), and raises `CommandError` for
an illegal one (R84). The host's other moves are served here too. -/

namespace Sys2Proof.Machine

/-- What serving one event comes to: the step is done, or a command is to be executed. -/
inductive Served where
  | done (s : State)
  | run (i : Instr) (s : State)
  deriving DecidableEq, Repr

/-- A command word on the port (R80, R84, R192). -/
def takeWord (w : Word) (s : State) : Served :=
  if s.faulted = true ∧ w ≠ resetWord then .done s
  else
    match decode w with
    | .ok i => .run i s
    | .error _ => .done (s.recordError .commandError w)

/-- One host event (R223). The reset pin acts between commands only (R211; log 5); a status read changes nothing (R26). -/
def takeEvent (e : HostEvent) (s : State) : Served :=
  match e with
  | .command w => takeWord w s
  | .resetPin => .done s.toReset
  | .popItem => .done s.popOne
  | .readStatus _ => .done s

/-- Take the oldest event the host has presented; with none, the block is idle and holds all state (R205; log 7). -/
def serve (s : State) : Served :=
  match s.input with
  | [] => .done s
  | e :: rest => takeEvent e { s with input := rest }

/-- The host presents an event, behind those already waiting (R64). -/
def State.present (s : State) (e : HostEvent) : State :=
  { s with input := s.input ++ [e] }

/-- The host presents the words of a list of commands, in order (R64, R213). -/
def State.send (s : State) (is : List Instr) : State :=
  { s with input := s.input ++ is.map (fun i => .command (encode i)) }

/-- A command word put where the next step takes it. -/
def State.withNextWord (s : State) (w : Word) : State :=
  { s with input := .command w :: s.input }

end Sys2Proof.Machine
end

