-- ==== Sys2Proof/Machine/Step.lean ====
section
/-! DEFINITION. One step: serve the oldest host event; a legal command word is executed. -/

namespace Sys2Proof.Machine

/-- One step of the block (20_memory R72, R74; log 14, log 15). -/
def step (s : State) : Host.Outcome State Fault Refusal :=
  match serve s with
  | .done t => .next t
  | .run i t => exec i t

/-- The state with a table word presented as the next command (log 7): bits above `nbits` are zero. -/
def State.withFetchWord (s : State) (nbits w : Nat) : State :=
  s.withNextWord (BitVec.ofNat 32 (w % 2 ^ nbits))

end Sys2Proof.Machine
end

