-- ==== Sys2Proof/Machine/Ports.lean ====
section
/-! DEFINITION. The host's views of the block: the output port and its channel streams (20_memory R66), the bytes of a
`PAL` value under the open byte order (R69), and the profile in force (42_palette R155). Nothing here changes state. -/

namespace Sys2Proof.Machine

/-- The code of a channel (R66). -/
def Channel.code : Channel → BitVec 2
  | .font => 0
  | .pal => 1
  | .pix => 2
  | .rgb => 3

/-- The 32-bit word an item is on the output port: six zero bits, the channel, the datum (R66). -/
def OutItem.word (it : OutItem) : Word := (0 : BitVec 6) ++ it.ch.code ++ it.d

/-- Data bits above the meaningful ones of the item's channel are 0 (R66). -/
def OutItem.meaningful (it : OutItem) : Bool :=
  match it.ch with
  | .font => it.d.toNat < 2 ^ 8
  | .pal => it.d.toNat < 2 ^ 16
  | .pix => it.d.toNat < 2 ^ 8
  | .rgb => true

/-- The item the host would take next, as a port word (R66, R223; log 17). -/
def State.outputPort (s : State) : Option Word := s.out[s.popped]?.map OutItem.word

/-- One channel's stream: its items' data, in order (R66). -/
def stream (ch : Channel) (out : List OutItem) : List (BitVec 24) :=
  (out.filter (fun it => it.ch == ch)).map OutItem.d

/-- The two bytes of a `PAL` value, first byte first (R69); the order is the host's, no rule of the block reads it. -/
def palBytes (order : Config.ByteOrder) (v : BitVec 16) : List Byte :=
  match order with
  | .little => [v.extractLsb' 0 8, v.extractLsb' 8 8]
  | .big => [v.extractLsb' 8 8, v.extractLsb' 0 8]

/-- The bytes of a `PAL` value as this host stores them (R12, R69; log 2). -/
def hostPalBytes (v : BitVec 16) : List Byte := palBytes Config.outByteOrder v

/-- The profile in force (R155): the override palette of a row-within-frame, if one is present. -/
def State.profile (s : State) (py : Nat) : Option (List Colour) :=
  if s.isPresent (2 + py) then palColours s.pal.palmem (2 + py) else none

end Sys2Proof.Machine
end

