-- ==== Sys2Proof/Safety.lean ====
section
/-! DEFINITION. What every state that a run from reset reaches satisfies (10_state R35 and the facts derived in R30, R31,
R66, R190), and the host's obligation of 44_remap R176. -/

namespace Sys2Proof.Machine

/-- R35 (a), (b): an open font has a legal cell size; the counters are within it. -/
abbrev State.GlyphInv (s : State) : Prop :=
  (s.glyph.gph ≠ .gIdle → 1 ≤ s.glyph.gw.toNat ∧ 1 ≤ s.glyph.gh.toNat ∧ s.glyph.gh.toNat ≤ 8) ∧
  (s.glyph.gph = .gData → s.glyph.hk = .hkNone ∧ s.glyph.grow.toNat < s.glyph.gh.toNat ∧
    s.glyph.gpos.toNat ≤ s.glyph.gw.toNat) ∧
  (s.glyph.gph = .gHdr → s.glyph.grow = 0 ∧ s.glyph.gpos = 0)

/-- R35 (c): an active image has an even width, a legal size, its counters inside it, and its palette present. -/
abbrev State.ImageInv (s : State) : Prop :=
  s.image.iph = .active →
    s.image.iw.toNat % 2 = 0 ∧ 2 ≤ s.image.iw.toNat ∧ s.image.iw.toNat ≤ 254 ∧ 1 ≤ s.image.ih.toNat ∧
    s.image.ix.toNat < s.image.iw.toNat ∧ s.image.iy.toNat < s.image.ih.toNat ∧ s.isPresent 0 = true

/-- R35 (d): an active sheet has a legal height, its counters inside it, and its reference palette present. -/
abbrev State.RemapInv (s : State) : Prop :=
  s.remap.rph = .active →
    s.remap.rh.toNat % 128 = 0 ∧ 128 ≤ s.remap.rh.toNat ∧ s.remap.rh.toNat ≤ 65408 ∧
    s.remap.rx.toNat < 160 ∧ s.remap.ry.toNat < s.remap.rh.toNat ∧ s.isPresent 1 = true

/-- R35 (e): an open load is of a slot that exists and is absent. -/
abbrev State.LoadInv (s : State) : Prop :=
  s.pal.pselv = true → s.pal.psel.toNat ≤ 129 ∧ s.isPresent s.pal.psel.toNat = false

/-- R35, the register invariant. -/
abbrev State.RegInv (s : State) : Prop :=
  s.GlyphInv ∧ s.ImageInv ∧ s.RemapInv ∧ s.LoadInv

/-- The font table is in canonical form, and every listed mask is of a glyph that exists, a column of the cell and rows
of the cell only (R30). -/
abbrev State.FontInv (s : State) : Prop :=
  Memory.wf fontUnlisted s.font ∧
  ∀ c ∈ s.font, c.1 / 256 < 128 ∧ c.1 % 256 < s.glyph.gw.toNat ∧ c.2.toNat < 2 ^ s.glyph.gh.toNat

/-- The palette store is in canonical form and lists only entries that exist (R62). -/
abbrev State.PalmemInv (s : State) : Prop :=
  Memory.wf palUnlisted s.pal.palmem ∧ ∀ c ∈ s.pal.palmem, c.1 < 16 * 130

/-- A present slot has all sixteen entries written, and an open load has written those before its pointer (R31, R154). -/
abbrev State.WrittenInv (s : State) : Prop :=
  (∀ slot < 130, s.isPresent slot = true → ∀ e < 16, palEntry s.pal.palmem slot e ≠ none) ∧
  (s.pal.pselv = true → ∀ e < s.pal.pidx.toNat, palEntry s.pal.palmem s.pal.psel.toNat e ≠ none)

/-- Every emitted item has only its channel's meaningful bits (R66), and the host has taken no more than was emitted. -/
abbrev State.OutInv (s : State) : Prop :=
  (∀ it ∈ s.out, it.meaningful = true) ∧ s.popped ≤ s.out.length

/-- With no error recorded `ERRINFO` is 0 (R190). -/
abbrev State.ErrInv (s : State) : Prop :=
  s.err.kind = .noError → s.err.info = 0

/-- The invariant of the block. -/
abbrev State.Inv (s : State) : Prop :=
  s.RegInv ∧ s.FontInv ∧ s.PalmemInv ∧ s.WrittenInv ∧ s.OutInv ∧ s.ErrInv

/-- The states a run reaches (R74, R222): from the reset state, by steps of the block and by events the host presents. -/
inductive Reachable : State → Prop where
  | reset : Reachable State.reset
  | presented {s : State} (e : HostEvent) : Reachable s → Reachable (s.present e)
  | stepped {s t : State} : Reachable s → step s = .next t → Reachable t

/-- The family a command belongs to: the unit of the block that it drives (R83). -/
inductive CommandFamily where
  | control
  | quantizer
  | glyph
  | palette
  | image
  | remap
  deriving DecidableEq, Repr

/-- The family of each row of the opcode map (R83). -/
def familyOf : Instr → CommandFamily
  | .nop => .control
  | .reset => .control
  | .q565 _ _ _ => .quantizer
  | .qmask _ _ _ => .quantizer
  | .gbegin _ _ => .glyph
  | .gchr _ => .glyph
  | .geol => .glyph
  | .gend => .glyph
  | .palsel _ => .palette
  | .palw _ _ _ => .palette
  | .palclr _ => .palette
  | .ibegin _ _ => .image
  | .ipix _ => .image
  | .rbegin _ _ => .remap
  | .rpix _ => .remap

/-- The commands of the quantizer unit (R83). -/
def isQuantizerCommand (i : Instr) : Bool := familyOf i == .quantizer

/-- The commands of the glyph unit (R83). -/
def isGlyphCommand (i : Instr) : Bool := familyOf i == .glyph

/-- The commands of the palette store (R83). -/
def isPaletteCommand (i : Instr) : Bool := familyOf i == .palette

/-- The commands of the image unit (R83). -/
def isImageCommand (i : Instr) : Bool := familyOf i == .image

/-- The commands of the remap unit (R83). -/
def isRemapCommand (i : Instr) : Bool := familyOf i == .remap

/-- R176: what a host that loads the built-in profile owes. Overrides are present for exactly the rows 0 to 7 and 120 to
127, and rows `i` and `127 - i` share one palette. The block checks none of it. -/
abbrev State.pairedProfileLoaded (s : State) : Prop :=
  (∀ py < 128, s.isPresent (2 + py) = true ↔ py < 8 ∨ 120 ≤ py) ∧
  (∀ i < 8, ∀ e < 16, palEntry s.pal.palmem (2 + i) e = palEntry s.pal.palmem (2 + (127 - i)) e)

end Sys2Proof.Machine
end

