-- ==== Sys2Proof/Certificates/Slice0/Obligations.lean ====
section
/-! DEFINITION. The statements about the model, in the order of OBLIGATIONS.json. A state of a live block is one with no
error recorded (`s.err.kind = .noError`). A frame is written as an equation: `t = { s with glyph := t.glyph }` says that
everything but the glyph unit is as it was. -/

open Sys2Proof Sys2Proof.Machine

/-! ### Encoding (30_encoding) -/

/-- Decode and encode agree on every command, with every operand at every value its field admits (R81, R82, R83). -/
def Obligations.DecodeOfEncode : Prop :=
  ∀ i : Instr, decode (encode i) = .ok i

/-- A word that decodes is the word of the command it decodes to: no bit of a legal word is dropped (R81, R84). -/
def Obligations.EncodeOfDecode : Prop :=
  ∀ (w : Word) (i : Instr), decode w = .ok i → encode i = w

/-- R83: a word selects a row of the opcode map iff `(w & mask) = match`, and then it is that row's command; the table's
fifteen rows are fifteen different mnemonics. -/
def Obligations.OpcodeMapSelectsCommands : Prop :=
  (∀ (w : Word) (row : OpcodeRow), row ∈ opcodeTable →
    (w &&& row.mask = row.bits ↔ ∃ i, decode w = .ok i ∧ mnemonic i = row.name)) ∧
  (opcodeTable.map OpcodeRow.name).Nodup ∧ opcodeTable.length = 15

/-- R84: decode is total; a word is legal iff it matches a row; an illegal word presented to a live block raises
`CommandError` with the word itself and has no other effect; a faulted block discards every word but exactly 0x01000000. -/
def Obligations.IllegalWordRaisesCommandError : Prop :=
  (∀ w : Word, (∃ i, decode w = .ok i) ↔ ∃ row ∈ opcodeTable, w &&& row.mask = row.bits) ∧
  (∀ (s : State) (w : Word) (rest : List HostEvent), s.input = .command w :: rest → s.err.kind = .noError →
    (∀ row ∈ opcodeTable, w &&& row.mask ≠ row.bits) →
    step s = .next { s with input := rest, err := { kind := .commandError, info := w } }) ∧
  (∀ (s : State) (w : Word) (rest : List HostEvent), s.input = .command w :: rest → s.err.kind ≠ .noError →
    w ≠ 0x01000000 → step s = .next { s with input := rest })

/-- R85: a legal encoding whose operand is out of range decodes, and its command, executed by a live block, raises an
error. -/
def Obligations.OutOfRangeOperandRaises : Prop :=
  ∀ (i : Instr) (s : State), i.wellFormed = false → s.err.kind = .noError →
    ∃ t, exec i s = .next t ∧ t = { s with err := t.err } ∧ t.err.kind ≠ .noError

/-- One word of each family, its bits written out from the formats of R81 and the opcodes of R83, decodes to the command
it stands for. -/
def Obligations.SampleWordsDecode : Prop :=
  decode 0b00000000000000000000000000000000 = .ok .nop ∧
  decode 0b00010000000100100011010001010110 = .ok (.q565 0x12 0x34 0x56) ∧
  decode 0b00100000000001010000000000000011 = .ok (.gbegin 5 3) ∧
  decode 0b00110010000000000000000010000001 = .ok (.palclr 129) ∧
  decode 0b01000000111111100000000011111111 = .ok (.ibegin 254 255) ∧
  decode 0b01010000101000000000000100000000 = .ok (.rbegin 160 256)

/-! ### The step (20_memory R72, R74; 70_reset_and_hazards R211, R223) -/

/-- A step whose oldest host event is a legal command word is `exec` of the decoded command on the state with that word
taken; there is no program counter to move (R23, R74). That the word waits at the head of a list of events is the model's
choice (log 7). In a faulted state R192 has the word neither decoded nor executed unless it is the `RESET` word: there the
equation says that `step` and `exec` discard alike, which rests on the guard of the meanings, the model's own (log 10). -/
def Obligations.StepRunsDecodedCommand : Prop :=
  ∀ (s : State) (w : Word) (rest : List HostEvent) (i : Instr), s.input = .command w :: rest → decode w = .ok i →
    step s = exec i { s with input := rest }

/-- The host's other moves: the reset pin acts between commands, a pop takes the oldest item not yet taken, a status read
changes nothing, and with nothing presented the block holds all state. That the events wait in a list, and what a step with
none of them is, are the model's choices (log 6, log 7). -/
def Obligations.HostMovesServed : Prop :=
  (∀ (s : State) (rest : List HostEvent), s.input = .resetPin :: rest →
    step s = .next { s.toReset with input := rest }) ∧
  (∀ (s : State) (rest : List HostEvent), s.input = .popItem :: rest → s.popped < s.out.length →
    step s = .next { s with input := rest, popped := s.popped + 1 }) ∧
  (∀ (s : State) (rest : List HostEvent), s.input = .popItem :: rest → s.out.length ≤ s.popped →
    step s = .next { s with input := rest }) ∧
  (∀ (s : State) (rest : List HostEvent) (n : BitVec 1), s.input = .readStatus n :: rest →
    step s = .next { s with input := rest }) ∧
  (∀ s : State, s.input = [] → step s = .next s)

/-! ### The quantizer (40_quantizer) -/

/-- R110: the value of `q565`, as the formula and as the sum of its three fields, which do not overlap. -/
def Obligations.Q565PacksTruncatedChannels : Prop :=
  ∀ r g b : Byte,
    (q565 r g b).toNat = ((r.toNat >>> 3) <<< 11) ||| ((g.toNat >>> 2) <<< 5) ||| (b.toNat >>> 3) ∧
    (q565 r g b).toNat = r.toNat / 8 * 2048 + g.toNat / 4 * 32 + b.toNat / 8 ∧
    r.toNat >>> 3 ≤ 31 ∧ g.toNat >>> 2 ≤ 63 ∧ b.toNat >>> 3 ≤ 31 ∧ (q565 r g b).toNat ≤ 0xFFFF

/-- R112: the three channels of `qmask`, its 24-bit value, and that only the low 3, 2, 3 bits of the channels become 0. -/
def Obligations.QmaskClearsLowBits : Prop :=
  ∀ r g b : Byte,
    redOf (qmask r g b) = r &&& 0xF8 ∧ greenOf (qmask r g b) = g &&& 0xFC ∧ blueOf (qmask r g b) = b &&& 0xF8 ∧
    qmask r g b =
      ((r &&& 0xF8).setWidth 24 <<< 16) ||| ((g &&& 0xFC).setWidth 24 <<< 8) ||| (b &&& 0xF8).setWidth 24 ∧
    (redOf (qmask r g b)).toNat = r.toNat / 8 * 8 ∧ (greenOf (qmask r g b)).toNat = g.toNat / 4 * 4 ∧
    (blueOf (qmask r g b)).toNat = b.toNat / 8 * 8

/-- R114: monotonic per channel, idempotent re-derivation, idempotence of the mask, and which inputs share a field. -/
def Obligations.QuantizerLaws : Prop :=
  (∀ r1 r2 g b : Byte, r1 ≤ r2 → q565 r1 g b ≤ q565 r2 g b) ∧
  (∀ r g1 g2 b : Byte, g1 ≤ g2 → q565 r g1 b ≤ q565 r g2 b) ∧
  (∀ r g b1 b2 : Byte, b1 ≤ b2 → q565 r g b1 ≤ q565 r g b2) ∧
  (∀ r g b : Byte, ((q565 r g b).extractLsb' 11 5).toNat = r.toNat >>> 3 ∧
    ((q565 r g b).extractLsb' 5 6).toNat = g.toNat >>> 2 ∧ ((q565 r g b).extractLsb' 0 5).toNat = b.toNat >>> 3) ∧
  (∀ r g b : Byte,
    qmask (redOf (qmask r g b)) (greenOf (qmask r g b)) (blueOf (qmask r g b)) = qmask r g b ∧
    q565 (redOf (qmask r g b)) (greenOf (qmask r g b)) (blueOf (qmask r g b)) = q565 r g b) ∧
  (∀ (r g b : Byte) (k : Nat),
    (((q565 r g b).extractLsb' 11 5).toNat = k ↔ 8 * k ≤ r.toNat ∧ r.toNat ≤ 8 * k + 7) ∧
    (((q565 r g b).extractLsb' 5 6).toNat = k ↔ 4 * k ≤ g.toNat ∧ g.toNat ≤ 4 * k + 3) ∧
    (((q565 r g b).extractLsb' 0 5).toNat = k ↔ 8 * k ≤ b.toNat ∧ b.toNat ≤ 8 * k + 7))

/-- R97: the fields of the packed value, shifted back, are the channels of the masked triple. -/
def Obligations.PackedFieldsAreMaskedChannels : Prop :=
  ∀ r g b : Byte,
    ((q565 r g b).extractLsb' 11 5).setWidth 8 <<< 3 = r &&& 0xF8 ∧
    ((q565 r g b).extractLsb' 5 6).setWidth 8 <<< 2 = g &&& 0xFC ∧
    ((q565 r g b).extractLsb' 0 5).setWidth 8 <<< 3 = b &&& 0xF8

/-- R111: `Q565` has its word, is legal in every phase of every unit, emits one `PAL` item and writes no state. -/
def Obligations.Q565EmitsOneItem : Prop :=
  ∀ (r g b : Byte) (s : State),
    encode (.q565 r g b) =
      0x10000000#32 ||| (r.setWidth 32 <<< 16) ||| (g.setWidth 32 <<< 8) ||| b.setWidth 32 ∧
    (s.err.kind = .noError →
      exec (.q565 r g b) s = .next { s with out := s.out ++ [{ ch := .pal, d := (q565 r g b).setWidth 24 }] })

/-- R113: `QMASK` has its word, is legal in every phase of every unit, emits one `RGB` item and writes no state. -/
def Obligations.QmaskEmitsOneItem : Prop :=
  ∀ (r g b : Byte) (s : State),
    encode (.qmask r g b) =
      0x11000000#32 ||| (r.setWidth 32 <<< 16) ||| (g.setWidth 32 <<< 8) ||| b.setWidth 32 ∧
    (s.err.kind = .noError →
      exec (.qmask r g b) s = .next { s with out := s.out ++ [{ ch := .rgb, d := qmask r g b }] })

/-! ### The glyph unit (41_glyph) -/

/-- R121: the checks of `GBEGIN` in their order, and the empty font of the new cell size it opens. -/
def Obligations.GbeginOpensEmptyFont : Prop :=
  ∀ (a : Byte) (b : BitVec 16) (s : State),
    encode (.gbegin a b) = 0x20000000#32 ||| (a.setWidth 32 <<< 16) ||| b.setWidth 32 ∧
    (s.err.kind = .noError → s.glyph.gph ≠ .gIdle →
      exec (.gbegin a b) s = .next { s with err := { kind := .commandError, info := encode (.gbegin a b) } }) ∧
    (s.err.kind = .noError → s.glyph.gph = .gIdle → a = 0 ∨ b = 0 ∨ 8 < b.toNat →
      exec (.gbegin a b) s = .next { s with err := { kind := .parseError, info := 1 } }) ∧
    (s.err.kind = .noError → s.glyph.gph = .gIdle → a ≠ 0 → b ≠ 0 → b.toNat ≤ 8 →
      ∃ t, exec (.gbegin a b) s = .next t ∧ t = { s with glyph := t.glyph, font := t.font } ∧
        (∀ k c, k < 128 → c < 255 → fontMask t.font k c = 0) ∧
        t.glyph.gw = a ∧ t.glyph.gh.toNat = b.toNat ∧ t.glyph.line = 2 ∧ t.glyph.gph = .gHdr ∧
        t.glyph.hk = .hkNone ∧ t.glyph.gcode = 0 ∧ t.glyph.grow = 0 ∧ t.glyph.gpos = 0)

/-- R124, R125, R126, R127: the header line, by `HK`; `hexval` on the three digit ranges. -/
def Obligations.GchrReadsHeaderLine : Prop :=
  (∀ cc : CharCode,
    (0x30 ≤ cc.toNat → cc.toNat ≤ 0x39 → (hexval cc).map BitVec.toNat = some (cc.toNat - 0x30)) ∧
    (0x41 ≤ cc.toNat → cc.toNat ≤ 0x46 → (hexval cc).map BitVec.toNat = some (cc.toNat - 0x41 + 10)) ∧
    (0x61 ≤ cc.toNat → cc.toNat ≤ 0x66 → (hexval cc).map BitVec.toNat = some (cc.toNat - 0x61 + 10)) ∧
    (cc.toNat < 0x30 ∨ (0x39 < cc.toNat ∧ cc.toNat < 0x41) ∨ (0x46 < cc.toNat ∧ cc.toNat < 0x61) ∨
      0x66 < cc.toNat → hexval cc = none)) ∧
  (∀ (cc : CharCode) (s : State), s.err.kind = .noError → s.glyph.gph = .gHdr →
    (s.glyph.hk = .hkNone → cc = 0x23 →
      exec (.gchr cc) s = .next { s with glyph := { s.glyph with hk := .hkEsc } }) ∧
    (s.glyph.hk = .hkNone → 128 ≤ cc.toNat →
      exec (.gchr cc) s = .next { s with err := { kind := .parseError, info := s.glyph.line } }) ∧
    (s.glyph.hk = .hkNone → cc ≠ 0x23 → cc.toNat < 128 →
      exec (.gchr cc) s = .next { s with glyph := { s.glyph with gcode := cc.extractLsb' 0 7, hk := .hkDone } }) ∧
    (s.glyph.hk = .hkEsc → cc = 0x23 →
      exec (.gchr cc) s = .next { s with glyph := { s.glyph with gcode := 35, hk := .hkDone } }) ∧
    (s.glyph.hk = .hkEsc → ∀ h, hexval cc = some h →
      exec (.gchr cc) s = .next { s with glyph := { s.glyph with gcode := h.setWidth 7, hk := .hkHex } }) ∧
    (s.glyph.hk = .hkEsc → cc ≠ 0x23 → hexval cc = none →
      exec (.gchr cc) s = .next { s with err := { kind := .parseError, info := s.glyph.line } }) ∧
    (s.glyph.hk = .hkHex → hexval cc = none →
      exec (.gchr cc) s = .next { s with err := { kind := .parseError, info := s.glyph.line } }) ∧
    (s.glyph.hk = .hkHex → ∀ h, hexval cc = some h → 128 ≤ s.glyph.gcode.toNat * 16 + h.toNat →
      exec (.gchr cc) s = .next { s with err := { kind := .parseError, info := s.glyph.line } }) ∧
    (s.glyph.hk = .hkHex → ∀ h, hexval cc = some h → s.glyph.gcode.toNat * 16 + h.toNat < 128 →
      ∃ t, exec (.gchr cc) s = .next t ∧ t = { s with glyph := { s.glyph with gcode := t.glyph.gcode } } ∧
        t.glyph.gcode.toNat = s.glyph.gcode.toNat * 16 + h.toNat) ∧
    (s.glyph.hk = .hkDone → exec (.gchr cc) s = .next s))

/-- R128: a data-line character writes the one bit at (`GCODE`, `GPOS`, `GROW`), 1 for `X` or `x` and 0 for any other, and
advances `GPOS`; past column `GW` it has no effect. The premises are invariants of every reachable state: the row is one of
the cell's, and the font table is in canonical form. -/
def Obligations.GchrWritesOneFontBit : Prop :=
  (∀ cc : CharCode, ink cc = true ↔ cc = 0x58 ∨ cc = 0x78) ∧
  (∀ (cc : CharCode) (s : State), s.err.kind = .noError → s.glyph.gph = .gData →
    s.glyph.gpos.toNat < s.glyph.gw.toNat → s.glyph.grow.toNat < 8 → Memory.wf fontUnlisted s.font →
    ∃ t, exec (.gchr cc) s = .next t ∧
      t = { s with font := t.font, glyph := { s.glyph with gpos := s.glyph.gpos + 1 } } ∧
      ∀ k c r, k < 128 → c < 255 → r < 8 →
        (fontMask t.font k c).getLsbD r =
          if k = s.glyph.gcode.toNat ∧ c = s.glyph.gpos.toNat ∧ r = s.glyph.grow.toNat then ink cc
          else (fontMask s.font k c).getLsbD r) ∧
  (∀ (cc : CharCode) (s : State), s.err.kind = .noError → s.glyph.gph = .gData →
    s.glyph.gw.toNat ≤ s.glyph.gpos.toNat → exec (.gchr cc) s = .next s)

/-- R123, the clauses that hold in every phase: its word, the error in `G_IDLE`, and what `GCHR` never changes. -/
def Obligations.GchrFrame : Prop :=
  ∀ (cc : CharCode) (s : State),
    encode (.gchr cc) = 0x21000000#32 ||| cc.setWidth 32 ∧
    (s.err.kind = .noError → s.glyph.gph = .gIdle →
      exec (.gchr cc) s = .next { s with err := { kind := .commandError, info := encode (.gchr cc) } }) ∧
    (∀ t, exec (.gchr cc) s = .next t →
      t = { s with glyph := t.glyph, font := t.font, err := t.err } ∧
      t.glyph = { s.glyph with hk := t.glyph.hk, gcode := t.glyph.gcode, gpos := t.glyph.gpos })

/-- R129: `GEOL` in `G_IDLE` and at the end of a header line. -/
def Obligations.GeolEndsHeaderLine : Prop :=
  encode .geol = 0x22000000 ∧
  ∀ s : State, s.err.kind = .noError →
    (s.glyph.gph = .gIdle →
      exec .geol s = .next { s with err := { kind := .commandError, info := 0x22000000 } }) ∧
    (s.glyph.gph = .gHdr → s.glyph.hk = .hkNone ∨ s.glyph.hk = .hkEsc →
      exec .geol s = .next { s with err := { kind := .parseError, info := s.glyph.line } }) ∧
    (s.glyph.gph = .gHdr → s.glyph.hk = .hkDone ∨ s.glyph.hk = .hkHex →
      ∃ t, exec .geol s = .next t ∧ t = { s with glyph := t.glyph } ∧
        t.glyph = { s.glyph with gph := .gData, grow := 0, gpos := 0, hk := .hkNone, line := t.glyph.line } ∧
        t.glyph.line.toNat = (s.glyph.line.toNat + 1) % 2 ^ 32)

/-- R130: `GEOL` in `G_DATA`; the `GH`-th data line takes the unit back to a header. -/
def Obligations.GeolEndsDataLine : Prop :=
  ∀ s : State, s.err.kind = .noError → s.glyph.gph = .gData →
    (s.glyph.gpos.toNat < s.glyph.gw.toNat →
      exec .geol s = .next { s with err := { kind := .parseError, info := s.glyph.line } }) ∧
    (s.glyph.gw.toNat ≤ s.glyph.gpos.toNat → s.glyph.grow.toNat + 1 = s.glyph.gh.toNat →
      ∃ t, exec .geol s = .next t ∧ t = { s with glyph := t.glyph } ∧
        t.glyph = { s.glyph with gph := .gHdr, grow := 0, gpos := 0, line := t.glyph.line } ∧
        t.glyph.line.toNat = (s.glyph.line.toNat + 1) % 2 ^ 32) ∧
    (s.glyph.gw.toNat ≤ s.glyph.gpos.toNat → s.glyph.grow.toNat + 1 < s.glyph.gh.toNat →
      ∃ t, exec .geol s = .next t ∧ t = { s with glyph := t.glyph } ∧
        t.glyph = { s.glyph with grow := t.glyph.grow, gpos := 0, line := t.glyph.line } ∧
        t.glyph.grow.toNat = s.glyph.grow.toNat + 1 ∧
        t.glyph.line.toNat = (s.glyph.line.toNat + 1) % 2 ^ 32)

/-- R131, R93: `GEND` inside a glyph or a header fails; otherwise it emits `2 + 128 * GW` items, width and height first,
the mask of column `c` of glyph `k` at index `2 + k * GW + c`, and changes nothing but `GPH`. -/
def Obligations.GendEmitsFontBlock : Prop :=
  encode .gend = 0x23000000 ∧
  ∀ s : State, s.err.kind = .noError →
    (s.glyph.gph = .gIdle →
      exec .gend s = .next { s with err := { kind := .commandError, info := 0x23000000 } }) ∧
    (s.glyph.gph = .gData ∨ (s.glyph.gph = .gHdr ∧ s.glyph.hk ≠ .hkNone) →
      exec .gend s = .next { s with err := { kind := .parseError, info := s.glyph.line } }) ∧
    (s.glyph.gph = .gHdr → s.glyph.hk = .hkNone →
      ∃ items, exec .gend s =
          .next { s with glyph := { s.glyph with gph := .gIdle }, out := s.out ++ items } ∧
        items.length = 2 + 128 * s.glyph.gw.toNat ∧
        items[0]? = some { ch := .font, d := s.glyph.gw.setWidth 24 } ∧
        items[1]? = some { ch := .font, d := s.glyph.gh.setWidth 24 } ∧
        ∀ k c, k < 128 → c < s.glyph.gw.toNat →
          items[2 + k * s.glyph.gw.toNat + c]? = some { ch := .font, d := (fontMask s.font k c).setWidth 24 })

/-! ### The palette store (42_palette) -/

/-- R150: when a slot is busy; a palette command that targets a busy slot is refused with `CommandError`; a load of slot 0
while a sheet is active, and of slots 1 to 129 while an image is active, is allowed. -/
def Obligations.BusySlotRefused : Prop :=
  ∀ s : State,
    (s.busy 0 = true ↔ s.image.iph = .active) ∧
    (∀ slot, 1 ≤ slot → slot ≤ 129 → (s.busy slot = true ↔ s.remap.rph = .active)) ∧
    (∀ p : Byte, s.err.kind = .noError → p.toNat ≤ 129 → s.busy p.toNat = true →
      exec (.palsel p) s = .next { s with err := { kind := .commandError, info := encode (.palsel p) } } ∧
      exec (.palclr p) s = .next { s with err := { kind := .commandError, info := encode (.palclr p) } }) ∧
    (∀ r g b : Byte, s.err.kind = .noError → s.pal.pselv = true → s.pal.psel.toNat ≤ 129 →
      s.busy s.pal.psel.toNat = true →
      exec (.palw r g b) s = .next { s with err := { kind := .commandError, info := encode (.palw r g b) } }) ∧
    (s.err.kind = .noError → s.image.iph = .idle → s.remap.rph = .active →
      ∃ t, exec (.palsel 0) s = .next t ∧ t.err = s.err) ∧
    (∀ r g b : Byte, s.err.kind = .noError → s.image.iph = .idle → s.remap.rph = .active → s.pal.pselv = true →
      s.pal.psel = 0 → ∃ t, exec (.palw r g b) s = .next t ∧ t.err = s.err) ∧
    (∀ p : Byte, s.err.kind = .noError → s.image.iph = .active → s.remap.rph = .idle → 1 ≤ p.toNat → p.toNat ≤ 129 →
      ∃ t, exec (.palsel p) s = .next t ∧ t.err = s.err) ∧
    (∀ r g b : Byte, s.err.kind = .noError → s.image.iph = .active → s.remap.rph = .idle → s.pal.pselv = true →
      1 ≤ s.pal.psel.toNat → s.pal.psel.toNat ≤ 129 → ∃ t, exec (.palw r g b) s = .next t ∧ t.err = s.err)

/-- R151: `PALSEL` of a slot that does not exist or is busy fails; otherwise it opens a load of the slot, which is absent
from then on; no colour and no other presence bit changes. -/
def Obligations.PalselOpensLoad : Prop :=
  ∀ (p : Byte) (s : State),
    encode (.palsel p) = 0x30000000#32 ||| p.setWidth 32 ∧
    (s.err.kind = .noError → 129 < p.toNat ∨ s.busy p.toNat = true →
      exec (.palsel p) s = .next { s with err := { kind := .commandError, info := encode (.palsel p) } }) ∧
    (s.err.kind = .noError → p.toNat ≤ 129 → s.busy p.toNat = false →
      ∃ t, exec (.palsel p) s = .next t ∧ t = { s with pal := t.pal } ∧
        t.pal.psel = p ∧ t.pal.pidx = 0 ∧ t.pal.pselv = true ∧
        (∀ slot, slot ≤ 129 → t.isPresent slot = if slot = p.toNat then false else s.isPresent slot) ∧
        (∀ slot e, slot ≤ 129 → e < 16 → palEntry t.pal.palmem slot e = palEntry s.pal.palmem slot e))

/-- R152: `PALW` with no load open or into a busy slot fails; otherwise it stores the colour at (`PSEL`, `PIDX`) and moves
the pointer on, the sixteenth entry making the slot present and closing the load. The premise on `PSEL` is an invariant of
every reachable state. -/
def Obligations.PalwStoresEntry : Prop :=
  ∀ (r g b : Byte) (s : State),
    encode (.palw r g b) =
      0x31000000#32 ||| (r.setWidth 32 <<< 16) ||| (g.setWidth 32 <<< 8) ||| b.setWidth 32 ∧
    (s.err.kind = .noError → s.pal.pselv = false ∨ s.busy s.pal.psel.toNat = true →
      exec (.palw r g b) s = .next { s with err := { kind := .commandError, info := encode (.palw r g b) } }) ∧
    (s.err.kind = .noError → s.pal.pselv = true → s.pal.psel.toNat ≤ 129 → s.busy s.pal.psel.toNat = false →
      ∃ t, exec (.palw r g b) s = .next t ∧ t = { s with pal := t.pal } ∧ t.pal.psel = s.pal.psel ∧
        (∀ slot e, slot ≤ 129 → e < 16 →
          palEntry t.pal.palmem slot e =
            if slot = s.pal.psel.toNat ∧ e = s.pal.pidx.toNat then some (r ++ g ++ b)
            else palEntry s.pal.palmem slot e) ∧
        (s.pal.pidx = 15 → t.pal.pselv = false ∧ t.pal.pidx = 0 ∧
          ∀ slot, slot ≤ 129 →
            t.isPresent slot = if slot = s.pal.psel.toNat then true else s.isPresent slot) ∧
        (s.pal.pidx ≠ 15 → t.pal.pselv = true ∧ t.pal.pidx.toNat = s.pal.pidx.toNat + 1 ∧
          ∀ slot, slot ≤ 129 → t.isPresent slot = s.isPresent slot))

/-- R153: `PALCLR` of a slot that does not exist or is busy fails; otherwise the slot is absent, an open load of it is
abandoned, and `PSEL`, `PIDX` and every colour stay. -/
def Obligations.PalclrClearsSlot : Prop :=
  ∀ (p : Byte) (s : State),
    encode (.palclr p) = 0x32000000#32 ||| p.setWidth 32 ∧
    (s.err.kind = .noError → 129 < p.toNat ∨ s.busy p.toNat = true →
      exec (.palclr p) s = .next { s with err := { kind := .commandError, info := encode (.palclr p) } }) ∧
    (s.err.kind = .noError → p.toNat ≤ 129 → s.busy p.toNat = false →
      ∃ t, exec (.palclr p) s = .next t ∧ t = { s with pal := t.pal } ∧
        t.pal.psel = s.pal.psel ∧ t.pal.pidx = s.pal.pidx ∧
        (s.pal.pselv = true → s.pal.psel = p → t.pal.pselv = false) ∧
        (s.pal.psel ≠ p → t.pal.pselv = s.pal.pselv) ∧ (s.pal.pselv = false → t.pal.pselv = false) ∧
        (∀ slot, slot ≤ 129 → t.isPresent slot = if slot = p.toNat then false else s.isPresent slot) ∧
        (∀ slot e, slot ≤ 129 → e < 16 → palEntry t.pal.palmem slot e = palEntry s.pal.palmem slot e))

/-- R154 (b): across any step that leaves the image unit active, slot 0 keeps its presence and its colours; across any step
that leaves the remap unit active, slots 1 to 129 do. -/
def Obligations.ActiveUnitProtectsPalette : Prop :=
  ∀ s t : State, step s = .next t →
    (s.image.iph = .active → t.image.iph = .active →
      t.isPresent 0 = s.isPresent 0 ∧ ∀ e, e < 16 → palEntry t.pal.palmem 0 e = palEntry s.pal.palmem 0 e) ∧
    (s.remap.rph = .active → t.remap.rph = .active →
      ∀ slot, 1 ≤ slot → slot ≤ 129 → t.isPresent slot = s.isPresent slot ∧
        ∀ e, e < 16 → palEntry t.pal.palmem slot e = palEntry s.pal.palmem slot e)

/-! ### The image unit (43_image) -/

/-- R160, R161: the checks of `IBEGIN` in their order; a good one emits the palette block of slot 0 and the eight header
values, and opens the image, which stays idle when it has no pixel. `c e` is the colour of entry `e`. -/
def Obligations.IbeginEmitsPaletteAndHeader : Prop :=
  ∀ (a : Byte) (b : BitVec 16) (s : State),
    encode (.ibegin a b) = 0x40000000#32 ||| (a.setWidth 32 <<< 16) ||| b.setWidth 32 ∧
    (s.err.kind = .noError → s.image.iph = .active ∨ s.isPresent 0 = false →
      exec (.ibegin a b) s = .next { s with err := { kind := .commandError, info := encode (.ibegin a b) } }) ∧
    (s.err.kind = .noError → s.image.iph = .idle → s.isPresent 0 = true →
      a.getLsbD 0 = true ∨ 255 < b.toNat →
      exec (.ibegin a b) s =
        .next { s with err := { kind := .encodingError, info := (b.setWidth 32 <<< 16) ||| a.setWidth 32 } }) ∧
    (s.err.kind = .noError → s.image.iph = .idle → s.isPresent 0 = true →
      a.getLsbD 0 = false → b.toNat ≤ 255 →
      ∀ c : Nat → Colour, (∀ e, e < 16 → palEntry s.pal.palmem 0 e = some (c e)) →
      exec (.ibegin a b) s =
        .next { s with
          image :=
            { iw := a
              ih := b.extractLsb' 0 8
              iph := if a ≠ 0 ∧ b ≠ 0 then .active else .idle
              ix := 0
              iy := 0
              pxl1 := 0 }
          out := s.out ++
            (List.range 16).map (fun e =>
              { ch := .pal,
                d := (q565 ((c e).extractLsb' 16 8) ((c e).extractLsb' 8 8) ((c e).extractLsb' 0 8)).setWidth 24 }) ++
            [{ ch := .pix, d := a.setWidth 24 }, { ch := .pix, d := b.setWidth 24 }, { ch := .pix, d := 1 },
             { ch := .pix, d := 0 }, { ch := .pix, d := 0 }, { ch := .pix, d := 0 },
             { ch := .pix, d := Config.modeIndexed.setWidth 24 }, { ch := .pix, d := 0 }] })

/-- R163: `IPIX` with no image or with an index above 15 fails; at an even `IX` it latches the index and emits nothing; at an
odd one it emits the byte with the even pixel in the high nibble; then it advances in raster order, and the last pixel of
the image takes the unit to idle. The premises on the counters are invariants of every active image. -/
def Obligations.IpixPacksAndAdvances : Prop :=
  ∀ (idx : Byte) (s : State),
    encode (.ipix idx) = 0x41000000#32 ||| idx.setWidth 32 ∧
    (s.err.kind = .noError → s.image.iph = .idle →
      exec (.ipix idx) s = .next { s with err := { kind := .commandError, info := encode (.ipix idx) } }) ∧
    (s.err.kind = .noError → s.image.iph = .active → 15 < idx.toNat →
      exec (.ipix idx) s =
        .next { s with err :=
          { kind := .encodingError, info := (s.image.iy.setWidth 32 <<< 16) ||| s.image.ix.setWidth 32 } }) ∧
    (s.err.kind = .noError → s.image.iph = .active → idx.toNat ≤ 15 →
      s.image.ix.toNat < s.image.iw.toNat → s.image.iy.toNat < s.image.ih.toNat →
      ∃ t, exec (.ipix idx) s = .next t ∧ t = { s with image := t.image, out := t.out } ∧
        t.image.iw = s.image.iw ∧ t.image.ih = s.image.ih ∧
        (s.image.ix.getLsbD 0 = false → t.out = s.out ∧ t.image.pxl1 = idx.extractLsb' 0 4) ∧
        (s.image.ix.getLsbD 0 = true →
          t.out = s.out ++ [{ ch := .pix, d := (s.image.pxl1.setWidth 24 <<< 4) ||| idx.setWidth 24 }] ∧
          t.image.pxl1 = s.image.pxl1) ∧
        (s.image.ix.toNat + 1 < s.image.iw.toNat →
          t.image.ix.toNat = s.image.ix.toNat + 1 ∧ t.image.iy = s.image.iy ∧ t.image.iph = .active) ∧
        (s.image.ix.toNat + 1 = s.image.iw.toNat → s.image.iy.toNat + 1 < s.image.ih.toNat →
          t.image.ix = 0 ∧ t.image.iy.toNat = s.image.iy.toNat + 1 ∧ t.image.iph = .active) ∧
        (s.image.ix.toNat + 1 = s.image.iw.toNat → s.image.iy.toNat + 1 = s.image.ih.toNat →
          t.image.ix = 0 ∧ t.image.iy = 0 ∧ t.image.iph = .idle))

/-- Nibble packing (R68, R162, R164): two pixels sent from an even `IX` of an active image add exactly one byte to the output, and
both indices are recovered from it, the even pixel's from the high nibble. -/
def Obligations.PixelPairPacksAndUnpacks : Prop :=
  ∀ (s t u : State) (px1 px2 : Byte), s.err.kind = .noError → s.ImageInv → s.image.iph = .active →
    s.image.ix.toNat % 2 = 0 → px1.toNat ≤ 15 → px2.toNat ≤ 15 →
    exec (.ipix px1) s = .next t → exec (.ipix px2) t = .next u →
    ∃ byte : Byte, u.out = s.out ++ [{ ch := .pix, d := byte.setWidth 24 }] ∧
      byte >>> 4 = px1 ∧ byte &&& 0xF = px2

/-! ### The remap unit (44_remap) -/

/-- R170: the checks of `RBEGIN` in their order; a good one opens the sheet at its first pixel and emits nothing. -/
def Obligations.RbeginOpensSheet : Prop :=
  ∀ (a : Byte) (b : BitVec 16) (s : State),
    encode (.rbegin a b) = 0x50000000#32 ||| (a.setWidth 32 <<< 16) ||| b.setWidth 32 ∧
    (s.err.kind = .noError → s.remap.rph = .active →
      exec (.rbegin a b) s = .next { s with err := { kind := .commandError, info := encode (.rbegin a b) } }) ∧
    (s.err.kind = .noError → s.remap.rph = .idle → s.isPresent 1 = false →
      exec (.rbegin a b) s = .next { s with err := { kind := .configError, info := 1 } }) ∧
    (s.err.kind = .noError → s.remap.rph = .idle → s.isPresent 1 = true →
      a.toNat ≠ 160 ∨ b.toNat = 0 ∨ b.toNat % 128 ≠ 0 →
      exec (.rbegin a b) s =
        .next { s with err := { kind := .preconditionError, info := (b.setWidth 32 <<< 16) ||| a.setWidth 32 } }) ∧
    (s.err.kind = .noError → s.remap.rph = .idle → s.isPresent 1 = true →
      a.toNat = 160 → b.toNat ≠ 0 → b.toNat % 128 = 0 →
      exec (.rbegin a b) s = .next { s with remap := { rh := b, rx := 0, ry := 0, rph := .active } })

/-- R172, R173: `RPIX` with no sheet or with an index above 15 fails; otherwise it looks the index up in the override of the
row-within-frame where one is present and in the reference palette elsewhere, emits the masked colour, and advances in raster
order. The premises on the counters are invariants of every active sheet; the looked-up entry `c` is one that has been
written, which a present slot's always is. -/
def Obligations.RpixLooksUpMasksAndAdvances : Prop :=
  ∀ (idx : Byte) (s : State),
    encode (.rpix idx) = 0x51000000#32 ||| idx.setWidth 32 ∧
    (s.err.kind = .noError → s.remap.rph = .idle →
      exec (.rpix idx) s = .next { s with err := { kind := .commandError, info := encode (.rpix idx) } }) ∧
    (s.err.kind = .noError → s.remap.rph = .active → 15 < idx.toNat →
      exec (.rpix idx) s =
        .next { s with err :=
          { kind := .encodingError, info := (s.remap.ry.setWidth 32 <<< 16) ||| s.remap.rx.setWidth 32 } }) ∧
    (s.err.kind = .noError → s.remap.rph = .active → idx.toNat ≤ 15 →
      s.remap.rx.toNat < 160 → s.remap.ry.toNat < s.remap.rh.toNat →
      ∀ (slot : Nat) (c : Colour),
        slot = (if s.isPresent (2 + s.remap.ry.toNat % 128) = true then 2 + s.remap.ry.toNat % 128 else 1) →
        palEntry s.pal.palmem slot idx.toNat = some c →
      ∃ t, exec (.rpix idx) s = .next t ∧ t = { s with remap := t.remap, out := t.out } ∧
        t.out = s.out ++ [{ ch := .rgb, d :=
          (c.extractLsb' 16 8 &&& 0xF8) ++ (c.extractLsb' 8 8 &&& 0xFC) ++ (c.extractLsb' 0 8 &&& 0xF8) }] ∧
        t.remap.rh = s.remap.rh ∧
        (s.remap.rx.toNat + 1 < 160 →
          t.remap.rx.toNat = s.remap.rx.toNat + 1 ∧ t.remap.ry = s.remap.ry ∧ t.remap.rph = .active) ∧
        (s.remap.rx.toNat + 1 = 160 → s.remap.ry.toNat + 1 < s.remap.rh.toNat →
          t.remap.rx = 0 ∧ t.remap.ry.toNat = s.remap.ry.toNat + 1 ∧ t.remap.rph = .active) ∧
        (s.remap.rx.toNat + 1 = 160 → s.remap.ry.toNat + 1 = s.remap.rh.toNat →
          t.remap.rx = 0 ∧ t.remap.ry = 0 ∧ t.remap.rph = .idle))

/-- The binding of row to override is independent of the frame (R171, R172): two states that differ only in the remap unit's
position, in the same row of any two frames, emit the same item for the same index. -/
def Obligations.OverrideIndependentOfFrame : Prop :=
  ∀ (s t : State) (u : RemapUnit) (idx : Byte), s.err.kind = .noError → idx.toNat ≤ 15 →
    s.remap.rph = .active → u.rph = .active → u.ry.toNat % 128 = s.remap.ry.toNat % 128 →
    exec (.rpix idx) s = .next t →
    ∃ t', exec (.rpix idx) { s with remap := u } = .next t' ∧ t'.out = t.out ∧ ∃ it, t.out = s.out ++ [it]

/-! ### Control and reset (45_control, 10_state R50, 70_reset_and_hazards R210) -/

/-- R180: `NOP` is the zero word, changes nothing and emits nothing in every state, and any other word of its opcode is
illegal. -/
def Obligations.NopChangesNothing : Prop :=
  encode .nop = 0x00000000 ∧ (∀ s : State, exec .nop s = .next s) ∧
  ∀ f : OperandField, f ≠ 0 → ∀ i, decode ((0x00 : Byte) ++ f) ≠ .ok i

/-- R50, R181, R210: `RESET` in every state, faulted or not, and the reset pin leave the same state: every register, flag,
mask and presence bit at its reset value, the fault line low, `PALMEM` and `OUT` untouched, the block quiescent. -/
def Obligations.ResetTakesResetValues : Prop :=
  encode .reset = 0x01000000 ∧ (∀ f : OperandField, f ≠ 0 → ∀ i, decode ((0x01 : Byte) ++ f) ≠ .ok i) ∧
  ∀ s : State, ∃ t, exec .reset s = .next t ∧
    (∀ rest, s.input = .resetPin :: rest → step s = .next { t with input := rest }) ∧
    (∀ rest, s.input = .command 0x01000000 :: rest → step s = .next { t with input := rest }) ∧
    t.err.kind = .noError ∧ t.err.info = 0 ∧ t.faultLine = false ∧ t.quiescent = true ∧
    t.glyph.gph = .gIdle ∧ t.glyph.gw = 0 ∧ t.glyph.gh = 0 ∧ t.glyph.hk = .hkNone ∧ t.glyph.gcode = 0 ∧
    t.glyph.grow = 0 ∧ t.glyph.gpos = 0 ∧ t.glyph.line = 0 ∧
    (∀ k c, k < 128 → c < 255 → fontMask t.font k c = 0) ∧
    t.image.iph = .idle ∧ t.image.iw = 0 ∧ t.image.ih = 0 ∧ t.image.ix = 0 ∧ t.image.iy = 0 ∧ t.image.pxl1 = 0 ∧
    t.remap.rph = .idle ∧ t.remap.rh = 0 ∧ t.remap.rx = 0 ∧ t.remap.ry = 0 ∧
    t.pal.psel = 0 ∧ t.pal.pidx = 0 ∧ t.pal.pselv = false ∧ (∀ slot, slot ≤ 129 → t.isPresent slot = false) ∧
    t.pal.palmem = s.pal.palmem ∧ t.out = s.out ∧ t.popped = s.popped ∧ t.input = s.input

/-! ### Status (10_state R27 to R29) -/

/-- R27: the fields of `STATUS`, and its reset value. -/
def Obligations.StatusFields : Prop :=
  State.reset.statusPort 0 = 0x00000000 ∧
  ∀ s : State,
    ((s.statusPort 0).extractLsb' 0 3).toNat =
      (match s.err.kind with
      | .noError => 0 | .parseError => 1 | .encodingError => 2 | .configError => 3
      | .preconditionError => 4 | .commandError => 5) ∧
    (s.statusPort 0).getLsbD 3 = false ∧
    ((s.statusPort 0).extractLsb' 4 2).toNat =
      (match s.glyph.gph with
      | .gIdle => 0 | .gHdr => 1 | .gData => 2) ∧
    ((s.statusPort 0).getLsbD 6 = true ↔ s.image.iph = .active) ∧
    ((s.statusPort 0).getLsbD 7 = true ↔ s.remap.rph = .active) ∧
    (s.statusPort 0).getLsbD 8 = s.pal.pselv ∧
    (s.statusPort 0).getLsbD 9 = s.isPresent 0 ∧
    (s.statusPort 0).getLsbD 10 = s.isPresent 1 ∧
    (s.statusPort 0).extractLsb' 11 21 = 0

/-- The other views of the error registers (R28, R29, R63, R222): register 1 is `ERRINFO`, the fault line is
`ERRKIND != 0`, and what quiescent means. -/
def Obligations.ErrorRegisterViews : Prop :=
  State.reset.statusPort 1 = 0 ∧
  ∀ s : State, s.statusPort 1 = s.err.info ∧ (s.faultLine = true ↔ s.err.kind ≠ .noError) ∧
    (s.quiescent = true ↔ s.err.kind = .noError ∧ s.glyph.gph = .gIdle ∧ s.image.iph = .idle ∧
      s.remap.rph = .idle ∧ s.pal.pselv = false)

/-! ### Errors (60_exceptions) -/

/-- R191: a command that raises an error leaves the state before it with only `ERRKIND` and `ERRINFO` changed, the fault
line high. Every command of the block is meant. -/
def Obligations.FaultsArePrecise : Prop :=
  (∀ (k : ErrKind) (info : Word) (s : State),
    raise k info s = .next { s with err := { kind := k, info := info } }) ∧
  ∀ (i : Instr) (s t : State), s.err.kind = .noError → exec i s = .next t → t.err.kind ≠ .noError →
    t = { s with err := t.err } ∧ t.faultLine = true

/-- Which commands raise which kind, and what `ERRINFO` then holds (R186 to R190). For `CommandError` the causes are given
exactly: causes (b), (c) and (d) of R189, so `NOP`, `RESET`, `Q565` and `QMASK` never raise it; an illegal word, cause (a), is
no command and has its own statement. That the command word is computed as `encode i` is the model's reading (log 11). -/
def Obligations.ErrorKindsAndContext : Prop :=
  ∀ (i : Instr) (s t : State), s.err.kind = .noError → exec i s = .next t →
    (t.err.kind = .parseError →
      (∃ a b, i = .gbegin a b ∧ t.err.info = 1) ∨
      ((i = .geol ∨ i = .gend ∨ ∃ cc, i = .gchr cc) ∧ t.err.info = s.glyph.line)) ∧
    (t.err.kind = .encodingError →
      (∃ a b, i = .ibegin a b ∧ t.err.info = (b.setWidth 32 <<< 16) ||| a.setWidth 32) ∨
      (∃ idx, i = .ipix idx ∧
        t.err.info = (s.image.iy.setWidth 32 <<< 16) ||| s.image.ix.setWidth 32) ∨
      (∃ idx, i = .rpix idx ∧
        t.err.info = (s.remap.ry.setWidth 32 <<< 16) ||| s.remap.rx.setWidth 32)) ∧
    (t.err.kind = .configError → ∃ a b, i = .rbegin a b ∧ t.err.info = 1) ∧
    (t.err.kind = .preconditionError →
      ∃ a b, i = .rbegin a b ∧ t.err.info = (b.setWidth 32 <<< 16) ||| a.setWidth 32) ∧
    (t.err.kind = .commandError → t.err.info = encode i) ∧
    (t.err.kind = .commandError ↔
      (∃ a b, i = .gbegin a b ∧ s.glyph.gph ≠ .gIdle) ∨
      ((i = .geol ∨ i = .gend ∨ ∃ cc, i = .gchr cc) ∧ s.glyph.gph = .gIdle) ∨
      (∃ a b, i = .ibegin a b ∧ (s.image.iph = .active ∨ s.isPresent 0 = false)) ∨
      (∃ idx, i = .ipix idx ∧ s.image.iph = .idle) ∨
      (∃ a b, i = .rbegin a b ∧ s.remap.rph = .active) ∨
      (∃ idx, i = .rpix idx ∧ s.remap.rph = .idle) ∨
      (∃ p, (i = .palsel p ∨ i = .palclr p) ∧ (129 < p.toNat ∨ s.busy p.toNat = true)) ∨
      (∃ r g b, i = .palw r g b ∧ (s.pal.pselv = false ∨ s.busy s.pal.psel.toNat = true)))

/-- R192: while faulted, the block discards every word presented but exactly the `RESET` word, which it executes. -/
def Obligations.FaultedBlockDiscards : Prop :=
  (∀ (s : State) (w : Word) (rest : List HostEvent), s.err.kind ≠ .noError → s.input = .command w :: rest →
    w ≠ 0x01000000 → step s = .next { s with input := rest }) ∧
  (∀ (s : State) (rest : List HostEvent), s.err.kind ≠ .noError → s.input = .command 0x01000000 :: rest →
    step s = .next { s.toReset with input := rest })

/-- Only reset leaves the faulted state (R35 f, R195): a step from a faulted state either keeps every part of the block's
own state or is a reset, by the pin or by the `RESET` word. -/
def Obligations.OnlyResetLeavesFault : Prop :=
  ∀ s t : State, s.err.kind ≠ .noError → step s = .next t →
    t = { s with popped := t.popped, input := t.input } ∨
    ((∃ rest, s.input = .resetPin :: rest ∨ s.input = .command 0x01000000 :: rest) ∧
      t = { s.toReset with input := t.input })

/-! ### The output sequence (20_memory R66) -/

/-- The output sequence is append-only (R66): no step of the block takes an emitted item away or changes one. -/
def Obligations.OutputIsAppendOnly : Prop :=
  ∀ s t : State, step s = .next t → ∃ items, t.out = s.out ++ items

/-- On the output port an item is `(ch << 24) | d` (R66). That the port shows the oldest item the host has not taken, before
it is popped, is the model's choice (log 17), on its counter of the items taken (log 6). -/
def Obligations.OutputPortWord : Prop :=
  (∀ d : BitVec 24, OutItem.word { ch := .font, d := d } = d.setWidth 32 ∧
    OutItem.word { ch := .pal, d := d } = 0x01000000#32 ||| d.setWidth 32 ∧
    OutItem.word { ch := .pix, d := d } = 0x02000000#32 ||| d.setWidth 32 ∧
    OutItem.word { ch := .rgb, d := d } = 0x03000000#32 ||| d.setWidth 32) ∧
  ∀ (s : State) (it : OutItem) (rest : List OutItem), s.out.drop s.popped = it :: rest →
    s.outputPort = some it.word

/-! ### Frames (10_state R21, R22) -/

/-- `Q565`, `QMASK` and `NOP` change nothing but the output sequence: no register, no mask, no colour. -/
def Obligations.QuantizerFrame : Prop :=
  ∀ (i : Instr) (s t : State), isQuantizerCommand i = true ∨ i = .nop → exec i s = .next t →
    t = { s with out := t.out } ∧ (∀ k c, fontMask t.font k c = fontMask s.font k c) ∧
    (∀ slot e, palEntry t.pal.palmem slot e = palEntry s.pal.palmem slot e)

/-- The commands of the glyph unit change only its registers, the font table, the output and the error registers; only
`GBEGIN` and a data-line `GCHR` write the font, the latter no mask but the one at (`GCODE`, `GPOS`); a `GCHR` outside
`G_DATA` (R123 to R127) or past column `GW` (R128) leaves every mask as it was. No colour changes. For a `GCHR` inside the
cell the font table is in canonical form, an invariant of every reachable state (log 12). -/
def Obligations.GlyphFrame : Prop :=
  ∀ (i : Instr) (s t : State), isGlyphCommand i = true → exec i s = .next t →
    t = { s with glyph := t.glyph, font := t.font, out := t.out, err := t.err } ∧
    (∀ slot e, palEntry t.pal.palmem slot e = palEntry s.pal.palmem slot e) ∧
    (i = .geol ∨ i = .gend → ∀ k c, fontMask t.font k c = fontMask s.font k c) ∧
    (∀ cc, i = .gchr cc → s.glyph.gph ≠ .gData ∨ s.glyph.gw.toNat ≤ s.glyph.gpos.toNat →
      ∀ k c, fontMask t.font k c = fontMask s.font k c) ∧
    (∀ cc, i = .gchr cc → Memory.wf fontUnlisted s.font →
      ∀ k c, k < 128 → c < 255 → (k ≠ s.glyph.gcode.toNat ∨ c ≠ s.glyph.gpos.toNat) →
        fontMask t.font k c = fontMask s.font k c) ∧
    (i ≠ .gend → t.out = s.out)

/-- The commands of the palette store change only its own registers and the error registers; only `PALW` writes a colour,
the one at (`PSEL`, `PIDX`). No mask changes and nothing is emitted. -/
def Obligations.PaletteFrame : Prop :=
  ∀ (i : Instr) (s t : State), isPaletteCommand i = true → exec i s = .next t →
    t = { s with pal := t.pal, err := t.err } ∧ (∀ k c, fontMask t.font k c = fontMask s.font k c) ∧
    (∀ slot e, slot ≤ 129 → e < 16 →
      ((∀ r g b, i ≠ .palw r g b) ∨ slot ≠ s.pal.psel.toNat ∨ e ≠ s.pal.pidx.toNat) →
      palEntry t.pal.palmem slot e = palEntry s.pal.palmem slot e)

/-- The commands of the image unit change only its registers, the output and the error registers. -/
def Obligations.ImageFrame : Prop :=
  ∀ (i : Instr) (s t : State), isImageCommand i = true → exec i s = .next t →
    t = { s with image := t.image, out := t.out, err := t.err } ∧
    (∀ k c, fontMask t.font k c = fontMask s.font k c) ∧
    (∀ slot e, palEntry t.pal.palmem slot e = palEntry s.pal.palmem slot e)

/-- The commands of the remap unit change only its registers, the output and the error registers. -/
def Obligations.RemapFrame : Prop :=
  ∀ (i : Instr) (s t : State), isRemapCommand i = true → exec i s = .next t →
    t = { s with remap := t.remap, out := t.out, err := t.err } ∧
    (∀ k c, fontMask t.font k c = fontMask s.font k c) ∧
    (∀ slot e, palEntry t.pal.palmem slot e = palEntry s.pal.palmem slot e)

/-- Units may be interleaved (R21, R75): what a command of the glyph, image or remap unit does to its own unit, to the error
registers and to the output depends only on that unit's registers, the storage and slots it reads, and the error registers. -/
def Obligations.UnitsAreIndependent : Prop :=
  (∀ (i : Instr) (s s' t : State), isGlyphCommand i = true → s'.err = s.err → s'.glyph = s.glyph →
    s'.font = s.font → exec i s = .next t →
    ∃ t' items, exec i s' = .next t' ∧ t'.glyph = t.glyph ∧ t'.font = t.font ∧ t'.err = t.err ∧
      t.out = s.out ++ items ∧ t'.out = s'.out ++ items) ∧
  (∀ (i : Instr) (s s' t : State), isImageCommand i = true → s'.err = s.err → s'.image = s.image →
    s'.isPresent 0 = s.isPresent 0 → (∀ e, e < 16 → palEntry s'.pal.palmem 0 e = palEntry s.pal.palmem 0 e) →
    exec i s = .next t →
    ∃ t' items, exec i s' = .next t' ∧ t'.image = t.image ∧ t'.err = t.err ∧
      t.out = s.out ++ items ∧ t'.out = s'.out ++ items) ∧
  (∀ (i : Instr) (s s' t : State), isRemapCommand i = true → s'.err = s.err → s'.remap = s.remap →
    (∀ slot, 1 ≤ slot → slot ≤ 129 → s'.isPresent slot = s.isPresent slot ∧
      ∀ e, e < 16 → palEntry s'.pal.palmem slot e = palEntry s.pal.palmem slot e) →
    exec i s = .next t →
    ∃ t' items, exec i s' = .next t' ∧ t'.remap = t.remap ∧ t'.err = t.err ∧
      t.out = s.out ++ items ∧ t'.out = s'.out ++ items)

/-! ### Invariants (10_state R30, R31, R35) and stops -/

/-- Every step keeps the invariant: the register bounds of R35; the font's zero columns and rows (R30) and the palette's slots
(R62); the sixteen written entries of every present slot (R31); only meaningful bits in every item (R66); `ERRINFO` 0 while no
error is recorded (R190). The model's choices in it: the canonical form of the two stores (log 12), an entry that holds no
value until it is written (log 3), and that no more items are taken than were emitted (log 6). -/
def Obligations.StepKeepsInvariant : Prop :=
  ∀ s t : State, s.Inv → step s = .next t → t.Inv

/-- The reset state meets the invariant. The reset values are those of R50; that no entry is written (log 3), that the stores
list nothing (log 12) and that nothing is emitted or taken (log 6) are the model's choices. -/
def Obligations.ResetMeetsInvariant : Prop :=
  State.reset.Inv

/-- From a state that meets the invariant no step stops: every host event is served by a next state. The model's own faults
are met only outside the invariant (R154 c, log 3, log 9). The host is taken to drain `OUT` (log 6, the model's choice): a
block whose host never does waits (R215), and this statement says nothing of it. -/
def Obligations.InvariantStatesAlwaysStep : Prop :=
  ∀ s : State, s.Inv → ∃ t, step s = .next t

/-- R35: (a) to (e) in every state the block reaches from reset by any command sequence; (f) `ERRKIND` is 0 to 5, and once
non-zero it and `ERRINFO` do not change until reset. -/
def Obligations.ReachableStatesMeetBounds : Prop :=
  (∀ s : State, Reachable s →
    (s.glyph.gph.code.toNat ≤ 2 ∧
      (s.glyph.gph ≠ .gIdle → 1 ≤ s.glyph.gw.toNat ∧ s.glyph.gw.toNat ≤ 255 ∧ 1 ≤ s.glyph.gh.toNat ∧
        s.glyph.gh.toNat ≤ 8)) ∧
    (s.glyph.gph = .gData → s.glyph.hk = .hkNone ∧ s.glyph.grow.toNat < s.glyph.gh.toNat ∧
      s.glyph.gpos.toNat ≤ s.glyph.gw.toNat) ∧
    (s.glyph.gph = .gHdr → s.glyph.grow = 0 ∧ s.glyph.gpos = 0) ∧
    (s.image.iph = .active → s.image.iw.toNat % 2 = 0 ∧ 2 ≤ s.image.iw.toNat ∧ s.image.iw.toNat ≤ 254 ∧
      1 ≤ s.image.ih.toNat ∧ s.image.ih.toNat ≤ 255 ∧ s.image.ix.toNat < s.image.iw.toNat ∧
      s.image.iy.toNat < s.image.ih.toNat ∧ s.isPresent 0 = true) ∧
    (s.remap.rph = .active → s.remap.rh.toNat % 128 = 0 ∧ 128 ≤ s.remap.rh.toNat ∧
      s.remap.rh.toNat ≤ 65408 ∧ s.remap.rx.toNat < 160 ∧ s.remap.ry.toNat < s.remap.rh.toNat ∧
      s.isPresent 1 = true) ∧
    (s.pal.pselv = true → s.pal.psel.toNat ≤ 129 ∧ s.isPresent s.pal.psel.toNat = false) ∧
    s.err.kind.code.toNat ≤ 5) ∧
  (∀ s t : State, Reachable s → s.err.kind ≠ .noError → step s = .next t → t.err ≠ s.err →
    t = { s.toReset with input := t.input })

/-- The model's stops, exactly (log 3, log 9, the model's choices): no instruction is ever refused, and an instruction faults
if and only if the block is live and, with every check of its rule passed, `IBEGIN` or `RPIX` reads an entry nothing has
written, `PALW` has an open load of a slot above 129, or a data-line `GCHR` inside the cell has a row above 7. Where a check
fails the error is raised instead. -/
def Obligations.StopsOnlyOutsideTheStore : Prop :=
  (∀ (i : Instr) (s : State) (r : Refusal), exec i s ≠ .refused r) ∧
  (∀ (i : Instr) (s : State) (f : Fault), exec i s = .fault f ↔ s.err.kind = .noError ∧
    ((∃ a b, i = .ibegin a b ∧ f = .paletteUnwritten 0 ∧ s.image.iph = .idle ∧ s.isPresent 0 = true ∧
        a.toNat % 2 = 0 ∧ b.toNat ≤ 255 ∧ ∃ e, e < 16 ∧ palEntry s.pal.palmem 0 e = none) ∨
     (∃ idx, i = .rpix idx ∧ f = .paletteUnwritten (s.activeSlot (s.remap.ry.toNat % 128)) ∧
        s.remap.rph = .active ∧ idx.toNat ≤ 15 ∧
        palEntry s.pal.palmem (s.activeSlot (s.remap.ry.toNat % 128)) idx.toNat = none) ∨
     (∃ r g b, i = .palw r g b ∧ f = .noSuchPaletteSlot s.pal.psel.toNat ∧ s.pal.pselv = true ∧
        s.remap.rph = .idle ∧ 129 < s.pal.psel.toNat) ∨
     (∃ cc, i = .gchr cc ∧ f = .noSuchFontRow s.glyph.grow.toNat ∧ s.glyph.gph = .gData ∧
        s.glyph.gpos.toNat < s.glyph.gw.toNat ∧ 7 < s.glyph.grow.toNat)))

/-- Storage in canonical form, the model's own (log 12), is decided by its reads, so equal memories are equal data. -/
def Obligations.CanonicalStorageIsUnique : Prop :=
  ∀ (w : Nat) (d : Option (BitVec w)) (m m' : Memory w), Memory.wf d m → Memory.wf d m' →
    (∀ a, Memory.read d m a = Memory.read d m' a) → m = m'

/-- A command's meaning, asked about a faulted state directly, does nothing; `RESET` alone is not guarded. R192 speaks of words
on the port only: this second guard is the model's own (log 10). -/
def Obligations.FaultedMeaningsDiscard : Prop :=
  ∀ (i : Instr) (s : State), s.err.kind ≠ .noError → i ≠ .reset → exec i s = .next s
end

