-- ==== Sys2Proof/Laws/Encoding.lean ====
section
/-! SUPPORT. The fields of a word: what the encoder puts into each, and that a word is its two fields. -/

namespace Sys2Proof

/-- One bit of a word built from an opcode and an operand field. -/
theorem getLsbD_word (op : Byte) (f : OperandField) (i : Nat) :
    BitVec.getLsbD (op ++ f : Word) i = if i < 24 then f.getLsbD i else op.getLsbD (i - 24) :=
  BitVec.getLsbD_append

@[simp] theorem opcodeField_append (op : Byte) (f : OperandField) : opcodeField (op ++ f) = op := by
  apply BitVec.eq_of_getLsbD_eq
  intro i hi
  rw [opcodeField, BitVec.getLsbD_extractLsb', getLsbD_word]
  simp [hi]

@[simp] theorem operandField_append (op : Byte) (f : OperandField) : operandField (op ++ f) = f := by
  apply BitVec.eq_of_getLsbD_eq
  intro i hi
  rw [operandField, BitVec.getLsbD_extractLsb', getLsbD_word]
  simp [hi]

/-- A word is its opcode and its operand field (R80). -/
theorem fields_append (w : Word) : opcodeField w ++ operandField w = w := by
  apply BitVec.eq_of_getLsbD_eq
  intro i hi
  rw [opcodeField, operandField, BitVec.getLsbD_append, BitVec.getLsbD_extractLsb', BitVec.getLsbD_extractLsb']
  by_cases h : i < 24
  · simp [h]
  · have h2 : i - 24 < 8 := by omega
    have h3 : 24 + (i - 24) = i := by omega
    simp [h, h2, h3]

theorem opcodeField_encode (i : Instr) : opcodeField (encode i) = opcode i := opcodeField_append _ _

theorem operandField_encode (i : Instr) : operandField (encode i) = operands i := operandField_append _ _

/-! ### The operand fields of the formats (R81) -/

theorem getLsbD_fieldD (a : Byte) (b : BitVec 16) (i : Nat) :
    BitVec.getLsbD (fieldD a b) i = if i < 16 then b.getLsbD i else a.getLsbD (i - 16) :=
  BitVec.getLsbD_append

theorem getLsbD_fieldT (r g b : Byte) (i : Nat) :
    BitVec.getLsbD (fieldT r g b) i =
      if i < 8 then b.getLsbD i else if i - 8 < 8 then g.getLsbD (i - 8) else r.getLsbD (i - 8 - 8) := by
  unfold fieldT
  refine (BitVec.getLsbD_append (x := r ++ g) (y := b) (i := i)).trans ?_
  by_cases h : i < 8
  · simp [h]
  · simp only [h, if_false]
    exact BitVec.getLsbD_append

/-- A word is its opcode shifted up, with its operand field below (R87). -/
theorem word_eq_or (op : Byte) (f : OperandField) : (op ++ f : Word) = (op.setWidth 32 <<< 24) ||| f.setWidth 32 := by
  apply BitVec.eq_of_getLsbD_eq
  intro i hi
  rw [getLsbD_word]
  simp only [BitVec.getLsbD_or, BitVec.getLsbD_shiftLeft, BitVec.getLsbD_setWidth]
  by_cases h : i < 24
  · simp [*]
  · rw [if_neg h, BitVec.getLsbD_of_ge f i (by omega)]
    simp [*]
    intros
    omega

/-- Two words are equal iff their opcodes and their operand fields are. -/
theorem word_inj {op op' : Byte} {f f' : OperandField} : (op ++ f : Word) = op' ++ f' ↔ op = op' ∧ f = f' := by
  refine ⟨fun h => ⟨?_, ?_⟩, fun ⟨h, h'⟩ => h ▸ h' ▸ rfl⟩
  · have := congrArg opcodeField h
    rwa [opcodeField_append, opcodeField_append] at this
  · have := congrArg operandField h
    rwa [operandField_append, operandField_append] at this

/-- A row that is found is listed. -/
theorem mem_of_findRow {rows : List (Byte × Format)} {op : Byte} {fmt : Format} (h : findRow rows op = some fmt) :
    (op, fmt) ∈ rows := by
  induction rows with
  | nil => cases h
  | cons row rest ih =>
    obtain ⟨o, fmt'⟩ := row
    simp only [findRow] at h
    split at h
    · next e =>
      injection h with h
      subst e h
      exact List.mem_cons_self
    · exact List.mem_cons_of_mem _ (ih h)

/-- The format of a command's row (R83). -/
def formatOf : Instr → Format
  | .nop => .z .nop
  | .reset => .z .reset
  | .q565 _ _ _ => .t .q565
  | .qmask _ _ _ => .t .qmask
  | .gbegin _ _ => .d .gbegin
  | .gchr _ => .c .gchr
  | .geol => .z .geol
  | .gend => .z .gend
  | .palsel _ => .s .palsel
  | .palw _ _ _ => .t .palw
  | .palclr _ => .s .palclr
  | .ibegin _ _ => .d .ibegin
  | .ipix _ => .p .ipix
  | .rbegin _ _ => .d .rbegin
  | .rpix _ => .p .rpix

/-- Every opcode of the table finds its row. -/
theorem opcodeRow_opcode (i : Instr) : opcodeRow (opcode i) = some (formatOf i) := by
  cases i <;> rfl

/-- Decoding an encoded command reads its operand field by its row's format. -/
theorem decode_encode_format (i : Instr) : decode (encode i) = readOperands (opcode i) (formatOf i) (operands i) := by
  rw [decode, opcodeField_encode, operandField_encode, opcodeRow_opcode]

end Sys2Proof
end

