-- ==== Sys2Proof/Laws/Memory.lean ====
section
/-! SUPPORT. The sparse storage: a read after a write, and the canonical form that every write keeps. -/

namespace Sys2Proof.Machine

variable {w : Nat} {m : Memory w} {a b : Nat} {v : BitVec w} {d : Option (BitVec w)}

theorem memLookup_insert (m : Memory w) (a b : Nat) (v : BitVec w) :
    memLookup (memInsert m a v) b = if b = a then some v else memLookup m b := by
  induction m with
  | nil => simp [memInsert, memLookup]
  | cons c rest ih =>
    obtain ⟨k, x⟩ := c
    simp only [memInsert]
    split
    · simp [memLookup]
    · split
      · next h => subst h; simp only [memLookup]; split <;> rfl
      · next h =>
        simp only [memLookup, ih]
        by_cases hb : b = k
        · have : b ≠ a := fun e => h (e ▸ hb)
          simp [hb, show ¬ k = a from fun e => h e.symm]
        · simp [hb]

theorem memLookup_of_all_above (h : ∀ c ∈ m, a < c.1) : memLookup m a = none := by
  induction m with
  | nil => rfl
  | cons c rest ih =>
    have hc := h c (by simp)
    simp only [memLookup, if_neg (Nat.ne_of_lt hc)]
    exact ih fun c' hc' => h c' (by simp [hc'])

theorem memLookup_erase (hm : m.Pairwise (fun x y => x.1 < y.1)) (a b : Nat) :
    memLookup (memErase m a) b = if b = a then none else memLookup m b := by
  induction m with
  | nil => simp [memErase, memLookup]
  | cons c rest ih =>
    obtain ⟨k, x⟩ := c
    obtain ⟨habove, hrest⟩ := List.pairwise_cons.1 hm
    simp only [memErase]
    split
    · next h =>
      subst h
      by_cases hb : b = a
      · subst hb; simp [memLookup_of_all_above habove]
      · simp [memLookup, hb]
    · next h =>
      simp only [memLookup, ih hrest]
      by_cases hb : b = k
      · simp [hb, show ¬ k = a from fun e => h e.symm]
      · simp [hb]

theorem mem_memInsert {c : Nat × BitVec w} (h : c ∈ memInsert m a v) : c = (a, v) ∨ c ∈ m := by
  induction m with
  | nil => simpa [memInsert] using h
  | cons c' rest ih =>
    obtain ⟨k, x⟩ := c'
    simp only [memInsert] at h
    split at h
    · simpa using h
    · split at h
      · rcases List.mem_cons.1 h with h | h
        · exact .inl h
        · exact .inr (by simp [h])
      · rcases List.mem_cons.1 h with h | h
        · exact .inr (by simp [h])
        · rcases ih h with h | h
          · exact .inl h
          · exact .inr (by simp [h])

theorem mem_memErase {c : Nat × BitVec w} (h : c ∈ memErase m a) : c ∈ m := by
  induction m with
  | nil => simp [memErase] at h
  | cons c' rest ih =>
    obtain ⟨k, x⟩ := c'
    simp only [memErase] at h
    split at h
    · simp [h]
    · rcases List.mem_cons.1 h with h | h
      · simp [h]
      · simp [ih h]

theorem memInsert_sorted (hm : m.Pairwise (fun x y => x.1 < y.1)) :
    (memInsert m a v).Pairwise (fun x y => x.1 < y.1) := by
  induction m with
  | nil => simp [memInsert]
  | cons c rest ih =>
    obtain ⟨k, x⟩ := c
    obtain ⟨habove, hrest⟩ := List.pairwise_cons.1 hm
    simp only [memInsert]
    split
    · next h =>
      refine List.pairwise_cons.2 ⟨fun c hc => ?_, hm⟩
      rcases List.mem_cons.1 hc with rfl | hc
      · exact h
      · exact Nat.lt_trans h (habove c hc)
    · split
      · next h => subst h; exact List.pairwise_cons.2 ⟨habove, hrest⟩
      · next h1 h2 =>
        refine List.pairwise_cons.2 ⟨fun c hc => ?_, ih hrest⟩
        rcases mem_memInsert hc with rfl | hc
        · exact Nat.lt_of_le_of_ne (Nat.le_of_not_lt h1) (Ne.symm h2)
        · exact habove c hc

theorem memErase_sorted (hm : m.Pairwise (fun x y => x.1 < y.1)) :
    (memErase m a).Pairwise (fun x y => x.1 < y.1) := by
  induction m with
  | nil => simp [memErase]
  | cons c rest ih =>
    obtain ⟨k, x⟩ := c
    obtain ⟨habove, hrest⟩ := List.pairwise_cons.1 hm
    simp only [memErase]
    split
    · exact hrest
    · exact List.pairwise_cons.2 ⟨fun c hc => habove c (mem_memErase hc), ih hrest⟩

/-- The empty storage is canonical. -/
theorem Memory.wf_nil : Memory.wf d ([] : Memory w) := by simp [Memory.wf]

/-- A write keeps the canonical form. -/
theorem Memory.write_wf (hm : Memory.wf d m) : Memory.wf d (Memory.write d m a v) := by
  obtain ⟨hs, hv⟩ := hm
  unfold Memory.write
  split
  · exact ⟨memErase_sorted hs, fun c hc => hv c (mem_memErase hc)⟩
  · next hne =>
    refine ⟨memInsert_sorted hs, fun c hc => ?_⟩
    rcases mem_memInsert hc with rfl | hc
    · exact hne
    · exact hv c hc

/-- A cell listed after a write is the written one or was listed before. -/
theorem Memory.mem_write {c : Nat × BitVec w} (h : c ∈ Memory.write d m a v) : c = (a, v) ∨ c ∈ m := by
  unfold Memory.write at h
  split at h
  · exact .inr (mem_memErase h)
  · exact mem_memInsert h

/-- A read after a write: the written key gives the value written, every other key what it gave before. -/
theorem Memory.read_write (hm : Memory.wf d m) (a b : Nat) (v : BitVec w) :
    Memory.read d (Memory.write d m a v) b = if b = a then some v else Memory.read d m b := by
  unfold Memory.write Memory.read
  by_cases h : some v = d
  · rw [if_pos h, memLookup_erase hm.1]
    by_cases hb : b = a <;> simp [hb, h]
  · rw [if_neg h, memLookup_insert]
    by_cases hb : b = a <;> simp [hb]

/-- The empty storage reads as unlisted everywhere. -/
theorem Memory.read_nil (d : Option (BitVec w)) (a : Nat) : Memory.read d ([] : Memory w) a = d := rfl

theorem memLookup_of_mem (hm : m.Pairwise (fun x y => x.1 < y.1)) {c : Nat × BitVec w} (h : c ∈ m) :
    memLookup m c.1 = some c.2 := by
  induction m with
  | nil => simp at h
  | cons c' rest ih =>
    obtain ⟨habove, hrest⟩ := List.pairwise_cons.1 hm
    rcases List.mem_cons.1 h with rfl | h
    · simp [memLookup]
    · have := habove c h
      simp only [memLookup, if_neg (Nat.ne_of_gt this)]
      exact ih hrest h

theorem mem_of_memLookup (h : memLookup m a = some v) : (a, v) ∈ m := by
  induction m with
  | nil => simp [memLookup] at h
  | cons c rest ih =>
    obtain ⟨k, x⟩ := c
    simp only [memLookup] at h
    split at h
    · next e => subst e; simp_all
    · simp [ih h]

end Sys2Proof.Machine
end

