-- ==== Sys2Proof/Laws/State.lean ====
section
/-! SUPPORT. One lemma per field per named update of the state. -/

namespace Sys2Proof.Machine

variable (s : State)

/-! ### `State.emit` -/

@[simp] theorem State.emit_glyph (items : List OutItem) : (s.emit items).glyph = s.glyph := rfl
@[simp] theorem State.emit_font (items : List OutItem) : (s.emit items).font = s.font := rfl
@[simp] theorem State.emit_image (items : List OutItem) : (s.emit items).image = s.image := rfl
@[simp] theorem State.emit_remap (items : List OutItem) : (s.emit items).remap = s.remap := rfl
@[simp] theorem State.emit_pal (items : List OutItem) : (s.emit items).pal = s.pal := rfl
@[simp] theorem State.emit_err (items : List OutItem) : (s.emit items).err = s.err := rfl
@[simp] theorem State.emit_out (items : List OutItem) : (s.emit items).out = s.out ++ items := rfl
@[simp] theorem State.emit_popped (items : List OutItem) : (s.emit items).popped = s.popped := rfl
@[simp] theorem State.emit_input (items : List OutItem) : (s.emit items).input = s.input := rfl

/-! ### `State.recordError` -/

@[simp] theorem State.recordError_glyph (k : ErrKind) (info : Word) : (s.recordError k info).glyph = s.glyph := rfl
@[simp] theorem State.recordError_font (k : ErrKind) (info : Word) : (s.recordError k info).font = s.font := rfl
@[simp] theorem State.recordError_image (k : ErrKind) (info : Word) : (s.recordError k info).image = s.image := rfl
@[simp] theorem State.recordError_remap (k : ErrKind) (info : Word) : (s.recordError k info).remap = s.remap := rfl
@[simp] theorem State.recordError_pal (k : ErrKind) (info : Word) : (s.recordError k info).pal = s.pal := rfl
@[simp] theorem State.recordError_err (k : ErrKind) (info : Word) : (s.recordError k info).err = { kind := k, info := info } := rfl
@[simp] theorem State.recordError_out (k : ErrKind) (info : Word) : (s.recordError k info).out = s.out := rfl
@[simp] theorem State.recordError_popped (k : ErrKind) (info : Word) : (s.recordError k info).popped = s.popped := rfl
@[simp] theorem State.recordError_input (k : ErrKind) (info : Word) : (s.recordError k info).input = s.input := rfl

/-! ### `State.toReset` -/

@[simp] theorem State.toReset_glyph : (s.toReset).glyph = GlyphUnit.reset := rfl
@[simp] theorem State.toReset_font : (s.toReset).font = [] := rfl
@[simp] theorem State.toReset_image : (s.toReset).image = ImageUnit.reset := rfl
@[simp] theorem State.toReset_remap : (s.toReset).remap = RemapUnit.reset := rfl
@[simp] theorem State.toReset_pal : (s.toReset).pal = PaletteUnit.reset s.pal.palmem := rfl
@[simp] theorem State.toReset_err : (s.toReset).err = ErrorRegs.reset := rfl
@[simp] theorem State.toReset_out : (s.toReset).out = s.out := rfl
@[simp] theorem State.toReset_popped : (s.toReset).popped = s.popped := rfl
@[simp] theorem State.toReset_input : (s.toReset).input = s.input := rfl

/-! ### `State.popOne` -/

@[simp] theorem State.popOne_glyph : (s.popOne).glyph = s.glyph := rfl
@[simp] theorem State.popOne_font : (s.popOne).font = s.font := rfl
@[simp] theorem State.popOne_image : (s.popOne).image = s.image := rfl
@[simp] theorem State.popOne_remap : (s.popOne).remap = s.remap := rfl
@[simp] theorem State.popOne_pal : (s.popOne).pal = s.pal := rfl
@[simp] theorem State.popOne_err : (s.popOne).err = s.err := rfl
@[simp] theorem State.popOne_out : (s.popOne).out = s.out := rfl
@[simp] theorem State.popOne_popped : (s.popOne).popped = if s.popped < s.out.length then s.popped + 1 else s.popped := rfl
@[simp] theorem State.popOne_input : (s.popOne).input = s.input := rfl

/-! ### `State.present` -/

@[simp] theorem State.present_glyph (e : HostEvent) : (s.present e).glyph = s.glyph := rfl
@[simp] theorem State.present_font (e : HostEvent) : (s.present e).font = s.font := rfl
@[simp] theorem State.present_image (e : HostEvent) : (s.present e).image = s.image := rfl
@[simp] theorem State.present_remap (e : HostEvent) : (s.present e).remap = s.remap := rfl
@[simp] theorem State.present_pal (e : HostEvent) : (s.present e).pal = s.pal := rfl
@[simp] theorem State.present_err (e : HostEvent) : (s.present e).err = s.err := rfl
@[simp] theorem State.present_out (e : HostEvent) : (s.present e).out = s.out := rfl
@[simp] theorem State.present_popped (e : HostEvent) : (s.present e).popped = s.popped := rfl
@[simp] theorem State.present_input (e : HostEvent) : (s.present e).input = s.input ++ [e] := rfl

/-! ### `State.send` -/

@[simp] theorem State.send_glyph (is : List Instr) : (s.send is).glyph = s.glyph := rfl
@[simp] theorem State.send_font (is : List Instr) : (s.send is).font = s.font := rfl
@[simp] theorem State.send_image (is : List Instr) : (s.send is).image = s.image := rfl
@[simp] theorem State.send_remap (is : List Instr) : (s.send is).remap = s.remap := rfl
@[simp] theorem State.send_pal (is : List Instr) : (s.send is).pal = s.pal := rfl
@[simp] theorem State.send_err (is : List Instr) : (s.send is).err = s.err := rfl
@[simp] theorem State.send_out (is : List Instr) : (s.send is).out = s.out := rfl
@[simp] theorem State.send_popped (is : List Instr) : (s.send is).popped = s.popped := rfl
@[simp] theorem State.send_input (is : List Instr) : (s.send is).input = s.input ++ is.map (fun i => .command (encode i)) := rfl

/-! ### `State.withNextWord` -/

@[simp] theorem State.withNextWord_glyph (w : Word) : (s.withNextWord w).glyph = s.glyph := rfl
@[simp] theorem State.withNextWord_font (w : Word) : (s.withNextWord w).font = s.font := rfl
@[simp] theorem State.withNextWord_image (w : Word) : (s.withNextWord w).image = s.image := rfl
@[simp] theorem State.withNextWord_remap (w : Word) : (s.withNextWord w).remap = s.remap := rfl
@[simp] theorem State.withNextWord_pal (w : Word) : (s.withNextWord w).pal = s.pal := rfl
@[simp] theorem State.withNextWord_err (w : Word) : (s.withNextWord w).err = s.err := rfl
@[simp] theorem State.withNextWord_out (w : Word) : (s.withNextWord w).out = s.out := rfl
@[simp] theorem State.withNextWord_popped (w : Word) : (s.withNextWord w).popped = s.popped := rfl
@[simp] theorem State.withNextWord_input (w : Word) : (s.withNextWord w).input = .command w :: s.input := rfl

/-! ### Views that one part of the state decides -/

theorem State.faulted_eq_true : s.faulted = true ↔ s.err.kind ≠ .noError := by
  simp [State.faulted]

theorem State.faulted_eq_false : s.faulted = false ↔ s.err.kind = .noError := by
  simp [State.faulted]

theorem State.not_faulted (h : s.err.kind = .noError) : s.faulted = false :=
  (State.faulted_eq_false s).2 h

theorem State.faulted_congr {s t : State} (h : s.err = t.err) : s.faulted = t.faulted := by
  simp [State.faulted, h]

theorem State.isPresent_congr {s t : State} (h : s.pal = t.pal) (slot : Nat) : s.isPresent slot = t.isPresent slot := by
  simp [State.isPresent, h]

end Sys2Proof.Machine
end

