-- ==== Sys2Proof/Laws/Ops.lean ====
section
/-! SUPPORT. One lemma per shared operation, saying once everything it can do. -/

namespace Sys2Proof.Machine

/-! ### Raising and discarding -/

/-- A raised error is a next state with the error registers written. -/
theorem raise_eq (k : ErrKind) (info : Word) (s : State) : raise k info s = .next (s.recordError k info) := rfl

theorem raise_next {k : ErrKind} {info : Word} {s t : State} (h : raise k info s = .next t) :
    t = s.recordError k info := by
  injection h with h
  exact h.symm

theorem unlessFaulted_live {s : State} (h : s.err.kind = .noError) (body : Result) : unlessFaulted s body = body := by
  simp [unlessFaulted, State.not_faulted s h]

theorem unlessFaulted_faulted {s : State} (h : s.err.kind ≠ .noError) (body : Result) :
    unlessFaulted s body = .next s := by
  simp [unlessFaulted, (State.faulted_eq_true s).2 h]

/-- A command answers a next state either because the faulted block discards it or because its body does. -/
theorem unlessFaulted_next {s t : State} {body : Result} (h : unlessFaulted s body = .next t) :
    (s.err.kind ≠ .noError ∧ t = s) ∨ (s.err.kind = .noError ∧ body = .next t) := by
  by_cases hk : s.err.kind = .noError
  · exact .inr ⟨hk, by rwa [unlessFaulted_live hk] at h⟩
  · refine .inl ⟨hk, ?_⟩
    rw [unlessFaulted_faulted hk] at h
    injection h with h
    exact h.symm

/-! ### The presence bits -/

theorem getLsbD_setPresent (p : BitVec 130) (slot i : Nat) (bit : Bool) (h : slot < 130) :
    (setPresent p slot bit).getLsbD i = if i = slot then bit else p.getLsbD i := by
  unfold setPresent
  by_cases hi : i < 130
  · by_cases e : i = slot
    · subst e; cases bit <;> simp [hi]
    · cases bit <;> simp [e, hi]
  · have e : i ≠ slot := by omega
    simp [BitVec.getLsbD_of_ge _ _ (Nat.le_of_not_lt hi), e]

/-! ### The font table -/

/-- The two parts of a font key are read back from it. -/
theorem fontKey_inj {k c k' c' : Nat} (hc : c < 256) (hc' : c' < 256) (h : fontKey k c = fontKey k' c') :
    k = k' ∧ c = c' := by
  unfold fontKey at h
  omega

theorem fontKey_div {k c : Nat} (hc : c < 256) : fontKey k c / 256 = k := by
  unfold fontKey
  omega

theorem fontKey_mod {k c : Nat} (hc : c < 256) : fontKey k c % 256 = c := by
  unfold fontKey
  omega

theorem fontMask_nil (k c : Nat) : fontMask [] k c = 0 := rfl

/-- One bit of a mask with a row set or cleared. -/
theorem getLsbD_setRow (mask : Byte) (r i : Nat) (bit : Bool) (h : r < 8) :
    (setRow mask r bit).getLsbD i = if i = r then bit else mask.getLsbD i := by
  unfold setRow
  by_cases hi : i < 8
  · by_cases e : i = r
    · subst e; cases bit <;> simp [hi]
    · cases bit <;> simp [e, hi]
  · have e : i ≠ r := by omega
    simp [BitVec.getLsbD_of_ge _ _ (Nat.le_of_not_lt hi), e]

theorem fontWriteBit_wf {m : Memory 8} (hm : Memory.wf fontUnlisted m) (k c r : Nat) (bit : Bool) :
    Memory.wf fontUnlisted (fontWriteBit m k c r bit) :=
  Memory.write_wf hm

/-- A mask after a one-bit write: the written column's mask with its row written, every other mask as before. -/
theorem fontMask_writeBit {m : Memory 8} (hm : Memory.wf fontUnlisted m) {k c r k' c' : Nat} (bit : Bool)
    (hc : c < 256) (hc' : c' < 256) :
    fontMask (fontWriteBit m k c r bit) k' c' =
      if k' = k ∧ c' = c then setRow (fontMask m k c) r bit else fontMask m k' c' := by
  unfold fontWriteBit
  rw [show fontMask (Memory.write fontUnlisted m (fontKey k c) (setRow (fontMask m k c) r bit)) k' c' =
    (Memory.read fontUnlisted (Memory.write fontUnlisted m (fontKey k c) (setRow (fontMask m k c) r bit))
      (fontKey k' c')).getD 0 from rfl, Memory.read_write hm]
  by_cases h : k' = k ∧ c' = c
  · obtain ⟨rfl, rfl⟩ := h
    simp
  · rw [if_neg h, if_neg fun e => h (fontKey_inj hc' hc e)]
    rfl

/-! ### The palette store -/

theorem palKey_inj {s e s' e' : Nat} (he : e < 16) (he' : e' < 16) (h : palKey s e = palKey s' e') :
    s = s' ∧ e = e' := by
  unfold palKey at h
  omega

theorem palKey_lt {s e : Nat} (hs : s < 130) (he : e < 16) : palKey s e < 16 * 130 := by
  unfold palKey
  omega

theorem palWrite_wf {m : Memory 24} (hm : Memory.wf palUnlisted m) (s e : Nat) (c : Colour) :
    Memory.wf palUnlisted (palWrite m s e c) :=
  Memory.write_wf hm

/-- Nothing is unlisted by a palette write, so a read after one needs no canonical form. -/
theorem palEntry_write (m : Memory 24) {s e s' e' : Nat} (c : Colour) (he : e < 16) (he' : e' < 16) :
    palEntry (palWrite m s e c) s' e' = if s' = s ∧ e' = e then some c else palEntry m s' e' := by
  simp only [palEntry, palWrite, Memory.read, Memory.write, palUnlisted, reduceCtorEq, if_false, memLookup_insert]
  by_cases h : s' = s ∧ e' = e
  · obtain ⟨rfl, rfl⟩ := h
    simp
  · rw [if_neg h, if_neg fun e1 => h (palKey_inj he' he e1)]

theorem allSome_eq_some {α : Type} {l : List (Option α)} {xs : List α} : allSome l = some xs ↔ l = xs.map some := by
  induction l generalizing xs with
  | nil => cases xs <;> simp [allSome]
  | cons o rest ih =>
    cases o with
    | none => cases xs <;> simp [allSome]
    | some x =>
      simp only [allSome]
      cases hr : allSome rest with
      | none =>
        cases xs with
        | nil => simp
        | cons y ys =>
          have : rest ≠ ys.map some := fun e => by simp [ih.2 e] at hr
          simp [this]
      | some zs =>
        have := ih.1 hr
        cases xs with
        | nil => simp
        | cons y ys =>
          simp only [Option.some.injEq, List.cons.injEq, List.map_cons, this]
          constructor
          · rintro ⟨rfl, rfl⟩; exact ⟨rfl, rfl⟩
          · rintro ⟨rfl, h⟩
            exact ⟨rfl, (List.map_injective_iff.2 (Option.some_injective α)) h⟩

theorem allSome_eq_none {α : Type} {l : List (Option α)} : allSome l = none ↔ none ∈ l := by
  induction l with
  | nil => simp [allSome]
  | cons o rest ih =>
    cases o with
    | none => simp [allSome]
    | some x =>
      simp only [allSome]
      cases hr : allSome rest with
      | none => simpa using ih.1 hr
      | some zs => simpa using fun h => by simp [ih.2 h] at hr

/-- A slot's sixteen colours are read exactly when every entry has been written, and then each is its entry. -/
theorem palColours_eq_some {m : Memory 24} {slot : Nat} {cs : List Colour} :
    palColours m slot = some cs ↔ (List.range 16).map (palEntry m slot) = cs.map some :=
  allSome_eq_some

theorem palColours_entry {m : Memory 24} {slot : Nat} {cs : List Colour} (h : palColours m slot = some cs) :
    cs.length = 16 ∧ ∀ e < 16, palEntry m slot e = cs[e]? := by
  have h := palColours_eq_some.1 h
  have hlen : cs.length = 16 := by simpa using (congrArg List.length h).symm
  refine ⟨hlen, fun e he => ?_⟩
  have := congrArg (·[e]?) h
  simp only [List.getElem?_map, List.getElem?_range he, Option.map_some] at this
  rw [List.getElem?_eq_getElem (by omega)] at this ⊢
  simpa using this

theorem palColours_isSome {m : Memory 24} {slot : Nat} (h : ∀ e < 16, palEntry m slot e ≠ none) :
    ∃ cs, palColours m slot = some cs := by
  cases hc : palColours m slot with
  | some cs => exact ⟨cs, rfl⟩
  | none =>
    have := allSome_eq_none.1 hc
    obtain ⟨e, he, hn⟩ := List.mem_map.1 this
    exact absurd hn (h e (List.mem_range.1 he))

/-! ### Reset and the output port -/

/-- No slot is present after reset (R50). -/
@[simp] theorem State.toReset_isPresent (s : State) (slot : Nat) : s.toReset.isPresent slot = false := by
  simp [State.isPresent, PaletteUnit.reset]

theorem State.popOne_le {s : State} (h : s.popped ≤ s.out.length) : s.popOne.popped ≤ s.popOne.out.length := by
  simp only [State.popOne_popped, State.popOne_out]
  split <;> omega

end Sys2Proof.Machine
end

