-- ==== Sys2Proof/Laws/Exec.lean ====
section
/-! SUPPORT. One inversion lemma per meaning: every way in which it answers a next state. Later proofs about next states
cite these and do not unfold the meanings again. -/

namespace Sys2Proof.Machine

/-- The command had none of its effect: a faulted block discarded it, or it raised an error. -/
def NoEffect (s t : State) : Prop :=
  t = s ∨ ∃ k info, s.err.kind = .noError ∧ k ≠ .noError ∧ t = s.recordError k info

variable {s t : State}

theorem NoEffect.discarded : NoEffect s s := .inl rfl

theorem NoEffect.raised {k : ErrKind} {info : Word} (hl : s.err.kind = .noError) (hk : k ≠ .noError)
    (h : raise k info s = .next t) : NoEffect s t :=
  .inr ⟨k, info, hl, hk, raise_next h⟩

theorem NoEffect.eq_except_err (h : NoEffect s t) : t = { s with err := t.err } := by
  rcases h with rfl | ⟨k, info, -, -, rfl⟩ <;> rfl

theorem next_inj {a b : State} (h : (Host.Outcome.next a : Result) = .next b) : b = a := by
  injection h with h
  exact h.symm

/-! ### Control and quantizer -/

theorem execNop_eq (s : State) : execNop s = .next s := by
  unfold execNop unlessFaulted
  split <;> rfl

theorem execReset_eq (s : State) : execReset s = .next s.toReset := rfl

theorem execQ565_next {r g b : Byte} (h : execQ565 r g b s = .next t) :
    NoEffect s t ∨ (s.err.kind = .noError ∧ t = s.emit [palItem (q565 r g b)]) := by
  rcases unlessFaulted_next h with ⟨-, rfl⟩ | ⟨hl, h⟩
  · exact .inl .discarded
  · exact .inr ⟨hl, next_inj h⟩

theorem execQmask_next {r g b : Byte} (h : execQmask r g b s = .next t) :
    NoEffect s t ∨ (s.err.kind = .noError ∧ t = s.emit [rgbItem (qmask r g b)]) := by
  rcases unlessFaulted_next h with ⟨-, rfl⟩ | ⟨hl, h⟩
  · exact .inl .discarded
  · exact .inr ⟨hl, next_inj h⟩

/-! ### Glyph -/

theorem execGbegin_next {a : Byte} {b : BitVec 16} (h : execGbegin a b s = .next t) :
    NoEffect s t ∨ (s.err.kind = .noError ∧ s.glyph.gph = .gIdle ∧ a ≠ 0 ∧ b ≠ 0 ∧ b.toNat ≤ 8 ∧
      t = { s with
        font := []
        glyph :=
          { gw := a, gh := b.setWidth 4, gph := .gHdr, hk := .hkNone, gcode := 0, grow := 0, gpos := 0, line := 2 } }) := by
  rcases unlessFaulted_next h with ⟨-, rfl⟩ | ⟨hl, h⟩
  · exact .inl .discarded
  · split at h
    · exact .inl (.raised hl (by decide) h)
    · next h1 =>
      split at h
      · exact .inl (.raised hl (by decide) h)
      · next h2 =>
        split at h
        · exact .inl (.raised hl (by decide) h)
        · next h3 =>
          rw [not_or] at h2
          exact .inr ⟨hl, not_not.1 h1, h2.1, h2.2, Nat.le_of_not_lt h3, next_inj h⟩

/-- A header-line character changes only `HK` and `GCODE`. -/
theorem gchrHeader_next {cc : CharCode} (hl : s.err.kind = .noError) (h : gchrHeader cc s = .next t) :
    NoEffect s t ∨ t = { s with glyph := { s.glyph with hk := t.glyph.hk, gcode := t.glyph.gcode } } := by
  unfold gchrHeader at h
  split at h
  · unfold gchrFirst at h
    split at h
    · exact .inr (by rw [next_inj h])
    · split at h
      · exact .inl (.raised hl (by decide) h)
      · exact .inr (by rw [next_inj h])
  · unfold gchrAfterHash at h
    split at h
    · exact .inr (by rw [next_inj h])
    · split at h
      · exact .inr (by rw [next_inj h])
      · exact .inl (.raised hl (by decide) h)
  · unfold gchrHexDigit at h
    split at h
    · exact .inl (.raised hl (by decide) h)
    · split at h
      · exact .inl (.raised hl (by decide) h)
      · exact .inr (by rw [next_inj h])
  · exact .inr (by rw [next_inj h])

theorem execGchr_next {cc : CharCode} (h : execGchr cc s = .next t) :
    NoEffect s t ∨
    (s.err.kind = .noError ∧ s.glyph.gph = .gHdr ∧
      t = { s with glyph := { s.glyph with hk := t.glyph.hk, gcode := t.glyph.gcode } }) ∨
    (s.err.kind = .noError ∧ s.glyph.gph = .gData ∧ s.glyph.gpos.toNat < s.glyph.gw.toNat ∧
      s.glyph.grow.toNat < 8 ∧
      t = { s with
        font := fontWriteBit s.font s.glyph.gcode.toNat s.glyph.gpos.toNat s.glyph.grow.toNat (ink cc)
        glyph := { s.glyph with gpos := s.glyph.gpos + 1 } }) := by
  rcases unlessFaulted_next h with ⟨-, rfl⟩ | ⟨hl, h⟩
  · exact .inl .discarded
  · split at h
    · exact .inl (.raised hl (by decide) h)
    · next hp =>
      rcases gchrHeader_next hl h with h | h
      · exact .inl h
      · exact .inr (.inl ⟨hl, hp, h⟩)
    · next hp =>
      unfold gchrData at h
      split at h
      · next h1 =>
        split at h
        · next h2 => exact .inr (.inr ⟨hl, hp, h1, h2, next_inj h⟩)
        · cases h
      · exact .inl (next_inj h ▸ .discarded)

theorem execGeol_next (h : execGeol s = .next t) :
    NoEffect s t ∨
    (s.err.kind = .noError ∧ s.glyph.gph = .gHdr ∧
      t = { s with
        glyph := { s.glyph with gph := .gData, grow := 0, gpos := 0, hk := .hkNone, line := s.glyph.line + 1 } }) ∨
    (s.err.kind = .noError ∧ s.glyph.gph = .gData ∧ s.glyph.gw.toNat ≤ s.glyph.gpos.toNat ∧
      s.glyph.grow.toNat + 1 = s.glyph.gh.toNat ∧
      t = { s with glyph := { s.glyph with gpos := 0, line := s.glyph.line + 1, grow := 0, gph := .gHdr } }) ∨
    (s.err.kind = .noError ∧ s.glyph.gph = .gData ∧ s.glyph.gw.toNat ≤ s.glyph.gpos.toNat ∧
      s.glyph.grow.toNat + 1 ≠ s.glyph.gh.toNat ∧
      t = { s with glyph := { s.glyph with gpos := 0, line := s.glyph.line + 1, grow := s.glyph.grow + 1 } }) := by
  rcases unlessFaulted_next h with ⟨-, rfl⟩ | ⟨hl, h⟩
  · exact .inl .discarded
  · split at h
    · exact .inl (.raised hl (by decide) h)
    · next hp =>
      unfold geolHeader at h
      split at h
      · exact .inl (.raised hl (by decide) h)
      · exact .inl (.raised hl (by decide) h)
      · exact .inr (.inl ⟨hl, hp, next_inj h⟩)
      · exact .inr (.inl ⟨hl, hp, next_inj h⟩)
    · next hp =>
      unfold geolData at h
      split at h
      · exact .inl (.raised hl (by decide) h)
      · next h1 =>
        split at h
        · next h2 => exact .inr (.inr (.inl ⟨hl, hp, Nat.le_of_not_lt h1, h2, next_inj h⟩))
        · next h2 => exact .inr (.inr (.inr ⟨hl, hp, Nat.le_of_not_lt h1, h2, next_inj h⟩))

theorem execGend_next (h : execGend s = .next t) :
    NoEffect s t ∨ (s.err.kind = .noError ∧ s.glyph.gph = .gHdr ∧ s.glyph.hk = .hkNone ∧
      t = { s with glyph := { s.glyph with gph := .gIdle } }.emit
        ((fontBlock s.font s.glyph.gw s.glyph.gh).map (byteItem .font))) := by
  rcases unlessFaulted_next h with ⟨-, rfl⟩ | ⟨hl, h⟩
  · exact .inl .discarded
  · split at h
    · exact .inl (.raised hl (by decide) h)
    · exact .inl (.raised hl (by decide) h)
    · next hp =>
      split at h
      · exact .inl (.raised hl (by decide) h)
      · next hk => exact .inr ⟨hl, hp, not_not.1 hk, next_inj h⟩

/-! ### Palette -/

theorem execPalsel_next {p : Byte} (h : execPalsel p s = .next t) :
    NoEffect s t ∨ (s.err.kind = .noError ∧ p.toNat ≤ 129 ∧ s.busy p.toNat = false ∧
      t = { s with
        pal := { s.pal with psel := p, pidx := 0, pselv := true, present := setPresent s.pal.present p.toNat false } }) := by
  rcases unlessFaulted_next h with ⟨-, rfl⟩ | ⟨hl, h⟩
  · exact .inl .discarded
  · split at h
    · exact .inl (.raised hl (by decide) h)
    · next h1 =>
      split at h
      · exact .inl (.raised hl (by decide) h)
      · next h2 => exact .inr ⟨hl, Nat.le_of_not_lt h1, by simpa using h2, next_inj h⟩

theorem execPalw_next {r g b : Byte} (h : execPalw r g b s = .next t) :
    NoEffect s t ∨ (s.err.kind = .noError ∧ s.pal.pselv = true ∧ s.busy s.pal.psel.toNat = false ∧
      s.pal.psel.toNat ≤ 129 ∧ t = { s with pal := palStored s.pal (colour r g b) }) := by
  rcases unlessFaulted_next h with ⟨-, rfl⟩ | ⟨hl, h⟩
  · exact .inl .discarded
  · split at h
    · exact .inl (.raised hl (by decide) h)
    · next h1 =>
      split at h
      · exact .inl (.raised hl (by decide) h)
      · next h2 =>
        split at h
        · next h3 =>
          exact .inr ⟨hl, by simpa using h1, by simpa using h2, Nat.le_of_lt_succ h3, next_inj h⟩
        · cases h

theorem execPalclr_next {p : Byte} (h : execPalclr p s = .next t) :
    NoEffect s t ∨ (s.err.kind = .noError ∧ p.toNat ≤ 129 ∧ s.busy p.toNat = false ∧
      t = { s with
        pal := { s.pal with
          present := setPresent s.pal.present p.toNat false
          pselv := if s.pal.pselv = true ∧ s.pal.psel = p then false else s.pal.pselv } }) := by
  rcases unlessFaulted_next h with ⟨-, rfl⟩ | ⟨hl, h⟩
  · exact .inl .discarded
  · split at h
    · exact .inl (.raised hl (by decide) h)
    · next h1 =>
      split at h
      · exact .inl (.raised hl (by decide) h)
      · next h2 => exact .inr ⟨hl, Nat.le_of_not_lt h1, by simpa using h2, next_inj h⟩

/-! ### Image and remap -/

theorem UnitPhase.ne_active {p : UnitPhase} (h : ¬ p = .active) : p = .idle := by
  cases p <;> simp_all

theorem UnitPhase.ne_idle {p : UnitPhase} (h : ¬ p = .idle) : p = .active := by
  cases p <;> simp_all

theorem execIbegin_next {a : Byte} {b : BitVec 16} (h : execIbegin a b s = .next t) :
    NoEffect s t ∨ (s.err.kind = .noError ∧ s.image.iph = .idle ∧ s.isPresent 0 = true ∧ a.toNat % 2 = 0 ∧
      b.toNat ≤ 255 ∧ ∃ colours, palColours s.pal.palmem 0 = some colours ∧
      t = { s with image := imageOpened a b }.emit (imageItems colours a (b.setWidth 8))) := by
  rcases unlessFaulted_next h with ⟨-, rfl⟩ | ⟨hl, h⟩
  · exact .inl .discarded
  · split at h
    · exact .inl (.raised hl (by decide) h)
    · next h1 =>
      split at h
      · exact .inl (.raised hl (by decide) h)
      · next h2 =>
        split at h
        · exact .inl (.raised hl (by decide) h)
        · next h3 =>
          split at h
          · exact .inl (.raised hl (by decide) h)
          · next h4 =>
            split at h
            · next colours hc =>
              exact .inr ⟨hl, UnitPhase.ne_active h1, by simpa using h2, by omega, Nat.le_of_not_lt h4, colours, hc,
                next_inj h⟩
            · cases h

theorem execIpix_next {idx : Byte} (h : execIpix idx s = .next t) :
    NoEffect s t ∨
    (s.err.kind = .noError ∧ s.image.iph = .active ∧ idx.toNat ≤ 15 ∧ s.image.ix.toNat % 2 = 0 ∧
      t = { s with image := imageAdvance { s.image with pxl1 := idx.setWidth 4 } }) ∨
    (s.err.kind = .noError ∧ s.image.iph = .active ∧ idx.toNat ≤ 15 ∧ s.image.ix.toNat % 2 = 1 ∧
      t = { s with image := imageAdvance s.image }.emit
        [byteItem .pix (packPair s.image.pxl1 (idx.setWidth 4))]) := by
  rcases unlessFaulted_next h with ⟨-, rfl⟩ | ⟨hl, h⟩
  · exact .inl .discarded
  · split at h
    · exact .inl (.raised hl (by decide) h)
    · next h1 =>
      split at h
      · exact .inl (.raised hl (by decide) h)
      · next h2 =>
        split at h
        · next h3 => exact .inr (.inl ⟨hl, UnitPhase.ne_idle h1, Nat.le_of_not_lt h2, h3, next_inj h⟩)
        · next h3 =>
          exact .inr (.inr ⟨hl, UnitPhase.ne_idle h1, Nat.le_of_not_lt h2, by omega, next_inj h⟩)

theorem execRbegin_next {a : Byte} {b : BitVec 16} (h : execRbegin a b s = .next t) :
    NoEffect s t ∨ (s.err.kind = .noError ∧ s.remap.rph = .idle ∧ s.isPresent 1 = true ∧ a.toNat = 160 ∧ b ≠ 0 ∧
      b.toNat % 128 = 0 ∧ t = { s with remap := { rh := b, rph := .active, rx := 0, ry := 0 } }) := by
  rcases unlessFaulted_next h with ⟨-, rfl⟩ | ⟨hl, h⟩
  · exact .inl .discarded
  · split at h
    · exact .inl (.raised hl (by decide) h)
    · next h1 =>
      split at h
      · exact .inl (.raised hl (by decide) h)
      · next h2 =>
        split at h
        · exact .inl (.raised hl (by decide) h)
        · next h3 =>
          rw [not_or, not_or] at h3
          exact .inr ⟨hl, UnitPhase.ne_active h1, by simpa using h2, not_not.1 h3.1, h3.2.1, not_not.1 h3.2.2,
            next_inj h⟩

theorem execRpix_next {idx : Byte} (h : execRpix idx s = .next t) :
    NoEffect s t ∨ (s.err.kind = .noError ∧ s.remap.rph = .active ∧ idx.toNat ≤ 15 ∧
      ∃ c, palEntry s.pal.palmem (s.activeSlot (rowInFrame s.remap)) idx.toNat = some c ∧
      t = { s with remap := remapAdvance s.remap }.emit
        [rgbItem (qmask (redOf c) (greenOf c) (blueOf c))]) := by
  rcases unlessFaulted_next h with ⟨-, rfl⟩ | ⟨hl, h⟩
  · exact .inl .discarded
  · split at h
    · exact .inl (.raised hl (by decide) h)
    · next h1 =>
      split at h
      · exact .inl (.raised hl (by decide) h)
      · next h2 =>
        split at h
        · next c hc => exact .inr ⟨hl, UnitPhase.ne_idle h1, Nat.le_of_not_lt h2, c, hc, next_inj h⟩
        · cases h

/-! ### The step -/

/-- Every way in which serving an event ends without a command: idle, reset pin, pop, status read, a discarded word or an
illegal one. -/
theorem serve_done {s t : State} (h : serve s = .done t) :
    t = s ∨ ∃ rest, t = { s with input := rest } ∨ t = { s.toReset with input := rest } ∨
      t = { s.popOne with input := rest } ∨
      ∃ w, s.err.kind = .noError ∧ t = { s.recordError .commandError w with input := rest } := by
  unfold serve at h
  split at h
  · injection h with h; exact .inl h.symm
  · next e rest _ =>
    refine .inr ⟨rest, ?_⟩
    cases e with
    | command w =>
      simp only [takeEvent, takeWord] at h
      split at h
      · injection h with h; exact .inl h.symm
      · next hf =>
        split at h
        · cases h
        · next hd =>
          injection h with h
          by_cases hk : s.err.kind = .noError
          · exact .inr (.inr (.inr ⟨w, hk, h.symm⟩))
          · have hw : w = resetWord := by
              by_contra hw
              exact hf ⟨(State.faulted_eq_true _).2 hk, hw⟩
            subst hw
            rw [show decode resetWord = .ok .reset from rfl] at hd
            cases hd
    | resetPin => injection h with h; exact .inr (.inl h.symm)
    | popItem => injection h with h; exact .inr (.inr (.inl h.symm))
    | readStatus n => injection h with h; exact .inl h.symm

/-- A command is executed on the state with its event taken; it is the decoding of the word presented. -/
theorem serve_run {s u : State} {i : Instr} (h : serve s = .run i u) :
    ∃ w rest, s.input = .command w :: rest ∧ u = { s with input := rest } ∧ decode w = .ok i ∧
      (s.err.kind = .noError ∨ w = resetWord) := by
  unfold serve at h
  split at h
  · cases h
  · next e rest he =>
    cases e with
    | command w =>
      simp only [takeEvent, takeWord] at h
      split at h
      · cases h
      · next hf =>
        split at h
        · next i' hd =>
          injection h with h1 h2
          subst h1
          refine ⟨w, rest, he, h2.symm, hd, ?_⟩
          by_cases hk : s.err.kind = .noError
          · exact .inl hk
          · refine .inr ?_
            by_contra hw
            exact hf ⟨(State.faulted_eq_true _).2 hk, hw⟩
        · cases h
    | resetPin => cases h
    | popItem => cases h
    | readStatus n => cases h

end Sys2Proof.Machine
end

