-- ==== Sys2Proof/Laws/Operands.lean ====
section
/-! SUPPORT. The pure functions of the block and the raster advances of its two pixel units: what each gives, said once. -/

namespace Sys2Proof.Machine

/-! ### Colours -/

/-- One bit of a colour built from its channels. -/
theorem getLsbD_colour (r g b : Byte) (i : Nat) :
    (colour r g b).getLsbD i =
      if i < 8 then b.getLsbD i else if i - 8 < 8 then g.getLsbD (i - 8) else r.getLsbD (i - 8 - 8) := by
  unfold colour
  refine (BitVec.getLsbD_append (x := r ++ g) (y := b) (i := i)).trans ?_
  by_cases h : i < 8
  · simp [h]
  · simp only [h, if_false]
    exact BitVec.getLsbD_append

@[simp] theorem redOf_colour (r g b : Byte) : redOf (colour r g b) = r := by
  apply BitVec.eq_of_getLsbD_eq
  intro i hi
  rw [redOf, BitVec.getLsbD_extractLsb', getLsbD_colour, if_neg (by omega), if_neg (by omega),
    show 16 + i - 8 - 8 = i by omega]
  simp [hi]

@[simp] theorem greenOf_colour (r g b : Byte) : greenOf (colour r g b) = g := by
  apply BitVec.eq_of_getLsbD_eq
  intro i hi
  rw [greenOf, BitVec.getLsbD_extractLsb', getLsbD_colour, if_neg (by omega), if_pos (by omega),
    show 8 + i - 8 = i by omega]
  simp [hi]

@[simp] theorem blueOf_colour (r g b : Byte) : blueOf (colour r g b) = b := by
  apply BitVec.eq_of_getLsbD_eq
  intro i hi
  rw [blueOf, BitVec.getLsbD_extractLsb', getLsbD_colour]
  simp [hi]

/-! ### Counters -/

/-- A counter below its largest value goes up by one without wrapping. -/
theorem toNat_add_one {n : Nat} (x : BitVec n) (h : x.toNat + 1 < 2 ^ n) : (x + 1).toNat = x.toNat + 1 := by
  cases n with
  | zero => simp at h
  | succ n =>
    rw [BitVec.toNat_add, show (1 : BitVec (n + 1)).toNat = 1 by simp]
    exact Nat.mod_eq_of_lt h

/-- Everything an advance of the image unit can do (R163). -/
theorem imageAdvance_cases (u : ImageUnit) :
    (u.ix.toNat + 1 ≠ u.iw.toNat ∧ imageAdvance u = { u with ix := u.ix + 1 }) ∨
    (u.ix.toNat + 1 = u.iw.toNat ∧ u.iy.toNat + 1 ≠ u.ih.toNat ∧
      imageAdvance u = { u with ix := 0, iy := u.iy + 1 }) ∨
    (u.ix.toNat + 1 = u.iw.toNat ∧ u.iy.toNat + 1 = u.ih.toNat ∧
      imageAdvance u = { u with ix := 0, iy := 0, iph := .idle }) := by
  unfold imageAdvance
  by_cases hx : u.ix.toNat + 1 = u.iw.toNat <;> by_cases hy : u.iy.toNat + 1 = u.ih.toNat <;> simp [hx, hy]

/-- Everything an advance of the remap unit can do (R173). -/
theorem remapAdvance_cases (u : RemapUnit) :
    (u.rx.toNat + 1 ≠ 160 ∧ remapAdvance u = { u with rx := u.rx + 1 }) ∨
    (u.rx.toNat + 1 = 160 ∧ u.ry.toNat + 1 ≠ u.rh.toNat ∧
      remapAdvance u = { u with rx := 0, ry := u.ry + 1 }) ∨
    (u.rx.toNat + 1 = 160 ∧ u.ry.toNat + 1 = u.rh.toNat ∧
      remapAdvance u = { u with rx := 0, ry := 0, rph := .idle }) := by
  unfold remapAdvance
  by_cases hx : u.rx.toNat + 1 = 160 <;> by_cases hy : u.ry.toNat + 1 = u.rh.toNat <;>
    simp [Config.sheetW, hx, hy]

/-- Everything a stored palette entry can do to the store (R152). -/
theorem palStored_cases (u : PaletteUnit) (c : Colour) :
    (palStored u c).palmem = palWrite u.palmem u.psel.toNat u.pidx.toNat c ∧ (palStored u c).psel = u.psel ∧
    ((u.pidx = 15 ∧ (palStored u c).present = setPresent u.present u.psel.toNat true ∧
        (palStored u c).pselv = false ∧ (palStored u c).pidx = 0) ∨
     (u.pidx ≠ 15 ∧ (palStored u c).present = u.present ∧ (palStored u c).pselv = u.pselv ∧
        (palStored u c).pidx = u.pidx + 1)) := by
  unfold palStored
  split
  · next h => exact ⟨rfl, rfl, .inl ⟨h, rfl, rfl, rfl⟩⟩
  · next h => exact ⟨rfl, rfl, .inr ⟨h, rfl, rfl, rfl⟩⟩

/-! ### Items -/

theorem meaningful_byteItem (ch : Channel) (v : Byte) : (byteItem ch v).meaningful = true := by
  have := v.isLt
  cases ch <;> simp [byteItem, OutItem.meaningful] <;> omega

theorem meaningful_palItem (v : BitVec 16) : (palItem v).meaningful = true := by
  have := v.isLt
  simp [palItem, OutItem.meaningful]
  omega

theorem meaningful_rgbItem (c : Colour) : (rgbItem c).meaningful = true := rfl

end Sys2Proof.Machine
end

