-- ==== Sys2Proof/Laws/PerInstr.lean ====
section
/-! SUPPORT. What is stated command by command. Family `Laws.OpcodeByte`: the top byte of a command's word is the opcode
R83 gives its row, and the row its word selects bears its mnemonic. -/

namespace Sys2Proof.Laws.OpcodeByte

/-- The word of the command has its row's opcode in bits 31:24, and no other row's. -/
def Statement (i : Instr) : Prop :=
  opcodeField (encode i) = opcode i ∧
  ∃ row ∈ opcodeTable, row.name = mnemonic i ∧ opcodeField row.bits = opcode i

theorem of_row (i : Instr) (row : OpcodeRow) (h : row ∈ opcodeTable) (hn : row.name = mnemonic i)
    (ho : opcodeField row.bits = opcode i) : Statement i :=
  ⟨opcodeField_encode i, row, h, hn, ho⟩

theorem nop : Statement .nop :=
  of_row _ ⟨"NOP", 0x00000000, 0xFFFFFFFF⟩ (by decide) rfl rfl

theorem reset : Statement .reset :=
  of_row _ ⟨"RESET", 0x01000000, 0xFFFFFFFF⟩ (by decide) rfl rfl

theorem q565 (r g b : Byte) : Statement (.q565 r g b) :=
  of_row _ ⟨"Q565", 0x10000000, 0xFF000000⟩ (by decide) rfl rfl

theorem qmask (r g b : Byte) : Statement (.qmask r g b) :=
  of_row _ ⟨"QMASK", 0x11000000, 0xFF000000⟩ (by decide) rfl rfl

theorem gbegin (a : Byte) (b : BitVec 16) : Statement (.gbegin a b) :=
  of_row _ ⟨"GBEGIN", 0x20000000, 0xFF000000⟩ (by decide) rfl rfl

theorem gchr (cc : CharCode) : Statement (.gchr cc) :=
  of_row _ ⟨"GCHR", 0x21000000, 0xFF000000⟩ (by decide) rfl rfl

theorem geol : Statement .geol :=
  of_row _ ⟨"GEOL", 0x22000000, 0xFFFFFFFF⟩ (by decide) rfl rfl

theorem gend : Statement .gend :=
  of_row _ ⟨"GEND", 0x23000000, 0xFFFFFFFF⟩ (by decide) rfl rfl

theorem palsel (p : Byte) : Statement (.palsel p) :=
  of_row _ ⟨"PALSEL", 0x30000000, 0xFFFFFF00⟩ (by decide) rfl rfl

theorem palw (r g b : Byte) : Statement (.palw r g b) :=
  of_row _ ⟨"PALW", 0x31000000, 0xFF000000⟩ (by decide) rfl rfl

theorem palclr (p : Byte) : Statement (.palclr p) :=
  of_row _ ⟨"PALCLR", 0x32000000, 0xFFFFFF00⟩ (by decide) rfl rfl

theorem ibegin (a : Byte) (b : BitVec 16) : Statement (.ibegin a b) :=
  of_row _ ⟨"IBEGIN", 0x40000000, 0xFF000000⟩ (by decide) rfl rfl

theorem ipix (idx : Byte) : Statement (.ipix idx) :=
  of_row _ ⟨"IPIX", 0x41000000, 0xFFFFFF00⟩ (by decide) rfl rfl

theorem rbegin (a : Byte) (b : BitVec 16) : Statement (.rbegin a b) :=
  of_row _ ⟨"RBEGIN", 0x50000000, 0xFF000000⟩ (by decide) rfl rfl

theorem rpix (idx : Byte) : Statement (.rpix idx) :=
  of_row _ ⟨"RPIX", 0x51000000, 0xFFFFFF00⟩ (by decide) rfl rfl

end Sys2Proof.Laws.OpcodeByte
end

