-- ==== Sys2Proof/Machine/Pseudo.lean ====
section
/-! DEFINITION. The pseudo-instructions (30_encoding R88) and the walks by which a host turns a font text, an image and a
sheet into commands (R89, R90). Each is a list of commands; the block executes only their words. What a character and a
line are is the host tokenizer's choice (93_implementation_defined U14; log 16). -/

namespace Sys2Proof.Machine

/-- `GLINE` (R88). -/
def gline (chars : List CharCode) : List Instr := chars.map .gchr ++ [.geol]

/-- One `PALW` per colour, in order. -/
def palws (colours : List Colour) : List Instr :=
  colours.map (fun c => .palw (redOf c) (greenOf c) (blueOf c))

/-- `PALLOAD` (R88). -/
def palload (p : Byte) (colours : List Colour) : List Instr := .palsel p :: palws colours

/-- `OVRLOAD` (R88): the override of row-within-frame `py` is slot `2 + py`. -/
def ovrload (py : BitVec 7) (colours : List Colour) : List Instr := palload (py.setWidth 8 + 2) colours

/-- `PIXROW` (R88). -/
def pixrow (indices : List Byte) : List Instr := indices.map .ipix

/-- `RPIXROW` (R88). -/
def rpixrow (indices : List Byte) : List Instr := indices.map .rpix

/-- `FONTTEXT` (R89): the size line's two numbers, then every later line, then the end of the stream. -/
def fontText (w : Byte) (h : BitVec 16) (lines : List (List CharCode)) : List Instr :=
  .gbegin w h :: lines.flatMap gline ++ [.gend]

/-- The commands of an image (R90): its palette, its size, its pixels in raster order. -/
def imageCommands (colours : List Colour) (w : Byte) (h : BitVec 16) (pixels : List Byte) : List Instr :=
  palload 0 colours ++ .ibegin w h :: pixrow pixels

/-- The commands for one row of a profile (R90): load its override, or clear a stale one. R90 clears a row without an override
only where it might still be present from an earlier run and leaves to the host which rows those are. DESIGN CHOICE (log 18):
every row without an override is cleared. -/
def profileRow (py : BitVec 7) : Option (List Colour) → List Instr
  | some colours => ovrload py colours
  | none => [.palclr (py.setWidth 8 + 2)]

/-- The commands of a profile, row `py` first (R90). R90 gives the loads and the clears no order among each other. DESIGN CHOICE
(log 18): they are interleaved in row order. -/
def profileCommands : Nat → List (Option (List Colour)) → List Instr
  | _, [] => []
  | py, row :: rest => profileRow (BitVec.ofNat 7 py) row ++ profileCommands (py + 1) rest

/-- The commands of a sheet (R90): the reference palette, the profile's 128 rows, the size, the pixels in raster order. -/
def sheetCommands (reference : List Colour) (profile : List (Option (List Colour))) (w : Byte) (h : BitVec 16)
    (pixels : List Byte) : List Instr :=
  palload 1 reference ++ profileCommands 0 profile ++ .rbegin w h :: rpixrow pixels

end Sys2Proof.Machine
end

