-- ==== Sys2Proof/Tests/Slice0.lean ====
section
/-! SUPPORT. Small tests: ill-formed terms the check refuses, words written out bit by bit from the formats of R81 and the
opcodes of R83, one-step tests whose results are those of 95_test_vectors, and a witness for the premises of every
statement that has premises, one for each of its clauses, at the edges of their ranges. -/

namespace Sys2Proof.Tests

open Sys2Proof Sys2Proof.Machine

/-- The next state, if there is one. -/
def nextOf : Result → Option State
  | .next s => some s
  | .fault _ => none
  | .refused _ => none

/-- What is seen of the state after a command. -/
def after {α : Type} (i : Instr) (s : State) (see : State → α) : Option α := (nextOf (exec i s)).map see

/-- A 2 by 2 font being read: the phase, the header kind, the code, the row, the column (41_glyph; `LINE` is 2). -/
def fontState (gph : GlyphPhase) (hk : HeaderKind) (code : BitVec 7) (row : BitVec 4) (col : Byte) : State :=
  { State.reset with
    glyph := { gw := 2, gh := 2, gph := gph, hk := hk, gcode := code, grow := row, gpos := col, line := 2 } }

/-- The test palette `TP` of 95_test_vectors. -/
def tp (i : Nat) : Colour := colour (BitVec.ofNat 8 (17 * i)) (BitVec.ofNat 8 (255 - 17 * i)) (BitVec.ofNat 8 (40 * i))

/-- The sixteen cells of a slot that holds `TP`. -/
def tpCells (slot : Nat) : Memory 24 := (List.range 16).map (fun i => (palKey slot i, tp i))

/-- Slots 0 and 1 hold `TP` and are present; slot 2, the override of row 0, is present and holds the cells of `row0`. -/
def loaded (row0 : Memory 24) : State :=
  { State.reset with
    pal := { PaletteUnit.reset (tpCells 0 ++ tpCells 1 ++ row0) with present := if row0 = [] then 3 else 7 } }

/-- An image `w` by `h` at pixel (`x`, `y`), with `TP` in slots 0 and 1. -/
def imageState (w h x y : Byte) (px : BitVec 4) : State :=
  { loaded [] with image := { iw := w, ih := h, iph := .active, ix := x, iy := y, pxl1 := px } }

/-- A sheet of height `h` at pixel (`x`, `y`), with `TP` in slots 0 and 1. -/
def sheetState (row0 : Memory 24) (h : BitVec 16) (x : Byte) (y : BitVec 16) : State :=
  { loaded row0 with remap := { rh := h, rph := .active, rx := x, ry := y } }

/-- A load of slot `p` open at entry `e`. -/
def loadState (p : Byte) (e : BitVec 4) : State :=
  { State.reset with pal := { PaletteUnit.reset [] with psel := p, pidx := e, pselv := true } }

/-- A block that has recorded an error. -/
def faultedState : State := State.reset.recordError .commandError 0x02000000

/-- The error registers after a command. -/
def errAfter (i : Instr) (s : State) : Option (ErrKind × Word) := after i s (fun t => (t.err.kind, t.err.info))

/-! ### Well-formedness: an ill-formed term for each check (R85) -/

theorem test_wellFormed_refuses :
    (Instr.gbegin 0 1).wellFormed = false ∧ (Instr.gbegin 1 0).wellFormed = false ∧
    (Instr.gbegin 1 9).wellFormed = false ∧ (Instr.palsel 130).wellFormed = false ∧
    (Instr.palclr 130).wellFormed = false ∧ (Instr.ibegin 3 1).wellFormed = false ∧
    (Instr.ibegin 2 256).wellFormed = false ∧ (Instr.ipix 16).wellFormed = false ∧
    (Instr.rbegin 159 128).wellFormed = false ∧ (Instr.rbegin 160 0).wellFormed = false ∧
    (Instr.rbegin 160 100).wellFormed = false ∧ (Instr.rpix 16).wellFormed = false := by decide

theorem test_wellFormed_admits :
    (Instr.gbegin 255 8).wellFormed = true ∧ (Instr.palsel 129).wellFormed = true ∧
    (Instr.palclr 129).wellFormed = true ∧ (Instr.ibegin 254 255).wellFormed = true ∧
    (Instr.ipix 15).wellFormed = true ∧ (Instr.rbegin 160 65408).wellFormed = true ∧
    (Instr.rpix 15).wellFormed = true := by decide

/-! ### Decoding: one word of every row, bit by bit from R81 and R83 -/

theorem test_decode_control :
    decode 0b00000000000000000000000000000000 = .ok .nop ∧
    decode 0b00000001000000000000000000000000 = .ok .reset := by decide

theorem test_decode_quantizer :
    decode 0b00010000101010111100110111101111 = .ok (.q565 0xAB 0xCD 0xEF) ∧
    decode 0b00010001101010111100110111101111 = .ok (.qmask 0xAB 0xCD 0xEF) := by decide

theorem test_decode_glyph :
    decode 0b00100000000001010000000000000011 = .ok (.gbegin 5 3) ∧
    decode 0b00100001000000000000000001000001 = .ok (.gchr 0x41) ∧
    decode 0b00100010000000000000000000000000 = .ok .geol ∧
    decode 0b00100011000000000000000000000000 = .ok .gend := by decide

theorem test_decode_palette :
    decode 0b00110000000000000000000010000001 = .ok (.palsel 129) ∧
    decode 0b00110001000000010000001000000011 = .ok (.palw 1 2 3) ∧
    decode 0b00110010000000000000000000000111 = .ok (.palclr 7) := by decide

theorem test_decode_image :
    decode 0b01000000111111100000000011111111 = .ok (.ibegin 254 255) ∧
    decode 0b01000001000000000000000000001001 = .ok (.ipix 9) := by decide

theorem test_decode_remap :
    decode 0b01010000101000000000000100000000 = .ok (.rbegin 160 256) ∧
    decode 0b01010001000000000000000000001111 = .ok (.rpix 15) := by decide

/-- X2: words whose opcode is in no row. -/
theorem test_decode_unknown_opcode :
    ([0x02000000, 0xFF000000, 0x12000000, 0x24000000, 0x33000000, 0x42000000, 0x52000000] : List Word).map decode =
      ([0x02, 0xFF, 0x12, 0x24, 0x33, 0x42, 0x52] : List Byte).map (fun op => .error (.unknownOpcode op)) := by decide

/-- X3: words with a must-be-zero bit set. -/
theorem test_decode_must_be_zero :
    ([0x00000001, 0x01000001, 0x22000001, 0x23800000, 0x41000100, 0x51010000, 0x30000100, 0x32008000] : List Word).map
        decode =
      ([0x00, 0x01, 0x22, 0x23, 0x41, 0x51, 0x30, 0x32] : List Byte).map (fun op => .error (.mustBeZero op)) := by decide

theorem test_decodeTableWord :
    decodeTableWord 32 0x20050003 = some (.gbegin 5 3) ∧ decodeTableWord 32 0x02000000 = none := by decide

/-! ### One step of each command: results of 95_test_vectors -/

/-- 2.1, rows AB, CD, EF and FF, FF, FF. -/
theorem test_q565_emits :
    after (.q565 0xAB 0xCD 0xEF) .reset State.out = some [{ ch := .pal, d := 0xAE7D }] := by decide

theorem test_qmask_emits :
    after (.qmask 0xFF 0xFF 0xFF) .reset State.out = some [{ ch := .rgb, d := 0xF8FCF8 }] := by decide

/-- P1: after 20050003. -/
theorem test_gbegin_opens :
    after (.gbegin 5 3) .reset (fun t => (t.glyph.gph, t.glyph.gw, t.glyph.gh, t.glyph.line)) =
      some (.gHdr, 5, 3, 2) := by decide

/-- G32. -/
theorem test_gbegin_height_nine : errAfter (.gbegin 2 9) .reset = some (.parseError, 1) := by decide

/-- G20: the value of a hex escape is checked before it is narrowed. -/
theorem test_gchr_hex_too_large :
    errAfter (.gchr 0x30) (fontState .gHdr .hkHex 8 0 0) = some (.parseError, 2) := by decide

/-- G2, second data line: `.X` at row 1, column 1. -/
theorem test_gchr_writes_bit :
    after (.gchr 0x58) (fontState .gData .hkNone 65 1 1) (fun t => (fontMask t.font 65 1, t.glyph.gpos)) =
      some (0x02, 2) := by decide

/-- P1: the header line ends. -/
theorem test_geol_ends_header :
    after .geol (fontState .gHdr .hkDone 65 0 0) (fun t => (t.glyph.gph, t.glyph.hk, t.glyph.line)) =
      some (.gData, .hkNone, 3) := by decide

/-- G27: a data line that is too short. -/
theorem test_geol_short_line : errAfter .geol (fontState .gData .hkNone 65 0 1) = some (.parseError, 2) := by decide

/-- G13: the first items of an empty 1 by 1 font. -/
theorem test_gend_emits :
    after .gend { fontState .gHdr .hkNone 0 0 0 with glyph := { (fontState .gHdr .hkNone 0 0 0).glyph with gw := 1, gh := 1 } }
        (fun t => t.out.take 3) =
      some [{ ch := .font, d := 1 }, { ch := .font, d := 1 }, { ch := .font, d := 0 }] := by decide

/-- G28. -/
theorem test_gend_inside_glyph : errAfter .gend (fontState .gData .hkNone 65 1 0) = some (.parseError, 2) := by decide

/-- S6 and S5. -/
theorem test_palsel_last_slot :
    after (.palsel 129) .reset (fun t => (t.pal.psel, t.pal.pselv)) = some (129, true) := by decide

theorem test_palsel_no_slot : errAfter (.palsel 130) .reset = some (.commandError, 0x30000082) := by decide

/-- S1: the sixteenth entry makes the slot present. -/
theorem test_palw_sixteenth :
    after (.palw 255 0 88) (loadState 0 15)
        (fun t => (palEntry t.pal.palmem 0 15, t.pal.pselv, t.pal.pidx, t.isPresent 0, t.statusPort 0)) =
      some (some 0xFF0058, false, 0, true, 0x200) := by decide

/-- S4. -/
theorem test_palw_no_load : errAfter (.palw 1 2 3) .reset = some (.commandError, 0x31010203) := by decide

/-- S8: the open load is abandoned, the pointer stays. -/
theorem test_palclr_abandons_load :
    after (.palclr 0) (loadState 0 4) (fun t => (t.pal.pselv, t.pal.pidx)) = some (false, 4) := by decide

/-- S10: a load of another slot stays open. -/
theorem test_palclr_other_slot :
    after (.palclr 7) (loadState 0 4) (fun t => (t.pal.pselv, t.pal.pidx)) = some (true, 4) := by decide

/-- I2: the palette block and the header values whose number the spec fixes. -/
theorem test_ibegin_emits :
    after (.ibegin 4 2) (loaded []) (fun t => (t.out.take 22).map OutItem.d) =
      some [0x07E0, 0x1765, 0x26EA, 0x366F, 0x45D4, 0x5559, 0x64DE, 0x7443, 0x8BA8, 0x9B2D, 0xAAB2, 0xBA37, 0xC99C,
        0xD901, 0xE886, 0xF80B, 4, 2, 1, 0, 0, 0] := by decide

/-- I12. -/
theorem test_ibegin_odd_width : errAfter (.ibegin 3 256) (loaded []) = some (.encodingError, 0x01000003) := by decide

/-- I1: the second pixel of the pair ends the image. -/
theorem test_ipix_packs :
    after (.ipix 9) (imageState 2 1 1 0 3) (fun t => (t.out, t.image.iph, t.image.pxl1)) =
      some ([{ ch := .pix, d := 0x39 }], .idle, 3) := by decide

/-- I15. -/
theorem test_ipix_index_range : errAfter (.ipix 255) (imageState 2 2 0 1 2) = some (.encodingError, 0x00010000) := by decide

/-- M11: the missing reference palette is found before the bad size. -/
theorem test_rbegin_no_reference : errAfter (.rbegin 159 100) .reset = some (.configError, 1) := by decide

/-- M12. -/
theorem test_rbegin_width : errAfter (.rbegin 159 128) (loaded []) = some (.preconditionError, 0x0080009F) := by decide

/-- M1: no override, so the reference palette; slot 0 is present here as well, so `STATUS` has bit 9 set too (R27). -/
theorem test_rpix_reference :
    after (.rpix 5) (sheetState [] 128 0 0) (fun t => (t.out, t.remap.rx, t.statusPort 0)) =
      some ([{ ch := .rgb, d := 0x50A8C8 }], 1, 0x680) := by decide

/-- M4: row 128 is row 0 of frame 1, so its override; the last column moves to the next row. -/
theorem test_rpix_override :
    after (.rpix 5) (sheetState [(palKey 2 5, 0xFFFFFF)] 256 159 128) (fun t => (t.out, t.remap.rx, t.remap.ry)) =
      some ([{ ch := .rgb, d := 0xF8FCF8 }], 0, 129) := by decide

/-- X1. -/
theorem test_nop : after .nop (fontState .gData .hkNone 65 1 1) id = some (fontState .gData .hkNone 65 1 1) := by decide

/-- X6: `RESET` marks slot 0 absent; its colours stay. -/
theorem test_reset :
    after .reset (imageState 2 1 1 0 3) (fun t => (t.isPresent 0, t.image.iph, palEntry t.pal.palmem 0 15, t.statusPort 0)) =
      some (false, .idle, some 0xFF0058, 0) := by decide

/-- X5: the faulted block discards 01000001 and executes 01000000. -/
theorem test_step_faulted :
    step (faultedState.withNextWord 0x01000001) = .next faultedState ∧
    step (faultedState.withNextWord 0x01000000) = .next State.reset := ⟨rfl, rfl⟩

/-- X2 through a step. -/
theorem test_step_illegal :
    (nextOf (step (State.reset.withFetchWord 32 0x52000000))).map (fun t => (t.err.info, t.statusPort 0, t.faultLine)) =
      some (0x52000000, 0x005, true) := by decide

/-- A table word placed by the host is what the next step executes. -/
theorem test_step_withFetchWord : step (State.reset.withFetchWord 32 0x10FFFFFF) = exec (.q565 255 255 255) .reset := rfl

/-! ### Witnesses: the premises of the statements can be met -/

theorem witness_EncodeOfDecode : decode 0x510000FF = .ok (.rpix 255) := by decide

theorem witness_OpcodeMapSelectsCommands :
    (⟨"NOP", 0x00000000, 0xFFFFFFFF⟩ : OpcodeRow) ∈ opcodeTable ∧
    (⟨"RPIX", 0x51000000, 0xFFFFFF00⟩ : OpcodeRow) ∈ opcodeTable := by decide

theorem witness_IllegalWordRaisesCommandError :
    ((State.reset.withNextWord 0x24000000).input = .command 0x24000000 :: [] ∧
      (State.reset.withNextWord 0x24000000).err.kind = .noError ∧
      ∀ row ∈ opcodeTable, (0x24000000 : Word) &&& row.mask ≠ row.bits) ∧
    ((faultedState.withNextWord 0x01000001).input = .command 0x01000001 :: [] ∧
      (faultedState.withNextWord 0x01000001).err.kind ≠ .noError ∧ (0x01000001 : Word) ≠ 0x01000000) := by decide

theorem witness_OutOfRangeOperandRaises :
    (Instr.palclr 130).wellFormed = false ∧ State.reset.err.kind = .noError := by decide

theorem witness_StepRunsDecodedCommand :
    (State.reset.withNextWord 0x23000000).input = .command 0x23000000 :: [] ∧ decode 0x23000000 = .ok .gend := by decide

theorem witness_HostMovesServed :
    (State.reset.present .resetPin).input = .resetPin :: [] ∧
    ({ State.reset with input := [.popItem], out := [rgbItem 0] }.popped < [rgbItem 0].length) ∧
    ((State.reset.present .popItem).input = .popItem :: [] ∧
      (State.reset.present .popItem).out.length ≤ (State.reset.present .popItem).popped) ∧
    (State.reset.present (.readStatus 1)).input = .readStatus 1 :: [] ∧ State.reset.input = [] := by decide

theorem witness_QuantizerLaws : (0x07 : Byte) ≤ 0x08 ∧ (0x03 : Byte) ≤ 0x04 ∧ (0xFE : Byte) ≤ 0xFF := by decide

theorem witness_Q565EmitsOneItem : (fontState .gData .hkNone 65 1 1).err.kind = .noError := by decide

theorem witness_QmaskEmitsOneItem : (imageState 2 1 1 0 3).err.kind = .noError := by decide

theorem witness_GbeginOpensEmptyFont :
    State.reset.err.kind = .noError ∧ (fontState .gHdr .hkNone 0 0 0).glyph.gph ≠ .gIdle ∧
    State.reset.glyph.gph = .gIdle ∧ (0 : Byte) = 0 ∧ 8 < (9 : BitVec 16).toNat ∧
    (1 : Byte) ≠ 0 ∧ (8 : BitVec 16) ≠ 0 ∧ (8 : BitVec 16).toNat ≤ 8 := by decide

/-- The three digit ranges at both ends, and the codes beside them. -/
theorem witness_GchrReadsHeaderLine_digits :
    ([0x30, 0x39, 0x41, 0x46, 0x61, 0x66] : List CharCode).map hexval = [some 0, some 9, some 10, some 15, some 10, some 15] ∧
    ([0x2F, 0x3A, 0x40, 0x47, 0x60, 0x67] : List CharCode).map hexval = [none, none, none, none, none, none] := by decide

/-- A header line in each header kind, and a character for each clause of it: 127 and 128 for the bare header, 7F and 80
for the hex escape. -/
theorem witness_GchrReadsHeaderLine :
    (∀ hk, (fontState .gHdr hk 7 0 0).err.kind = .noError ∧ (fontState .gHdr hk 7 0 0).glyph.gph = .gHdr ∧
      (fontState .gHdr hk 7 0 0).glyph.hk = hk) ∧
    (127 : CharCode) ≠ 0x23 ∧ (127 : CharCode).toNat < 128 ∧ 128 ≤ (128 : CharCode).toNat ∧
    (0x47 : CharCode) ≠ 0x23 ∧ hexval 0x47 = none ∧ hexval 0x46 = some 15 ∧
    (fontState .gHdr .hkHex 7 0 0).glyph.gcode.toNat * 16 + (15 : BitVec 4).toNat < 128 ∧
    128 ≤ (fontState .gHdr .hkHex 8 0 0).glyph.gcode.toNat * 16 + (0 : BitVec 4).toNat :=
  ⟨fun _ => ⟨rfl, rfl, rfl⟩, by decide⟩

theorem witness_GchrWritesOneFontBit :
    ((fontState .gData .hkNone 127 1 1).err.kind = .noError ∧ (fontState .gData .hkNone 127 1 1).glyph.gph = .gData ∧
      (fontState .gData .hkNone 127 1 1).glyph.gpos.toNat < (fontState .gData .hkNone 127 1 1).glyph.gw.toNat ∧
      (fontState .gData .hkNone 127 1 1).glyph.grow.toNat < 8 ∧
      Memory.wf fontUnlisted (fontState .gData .hkNone 127 1 1).font) ∧
    (fontState .gData .hkNone 127 1 2).glyph.gw.toNat ≤ (fontState .gData .hkNone 127 1 2).glyph.gpos.toNat := by decide

theorem witness_GchrFrame :
    State.reset.err.kind = .noError ∧ State.reset.glyph.gph = .gIdle ∧
    ∃ t, exec (.gchr 0x58) (fontState .gData .hkNone 65 1 1) = .next t := ⟨rfl, rfl, _, rfl⟩

theorem witness_GeolEndsHeaderLine :
    State.reset.err.kind = .noError ∧ State.reset.glyph.gph = .gIdle ∧
    ∀ hk, (fontState .gHdr hk 65 0 0).glyph.gph = .gHdr ∧ (fontState .gHdr hk 65 0 0).glyph.hk = hk :=
  ⟨rfl, rfl, fun _ => ⟨rfl, rfl⟩⟩

/-- The last data line (row 1 of 2) and the one before it, complete; and a line one column short. -/
theorem witness_GeolEndsDataLine :
    (fontState .gData .hkNone 65 1 2).err.kind = .noError ∧ (fontState .gData .hkNone 65 1 2).glyph.gph = .gData ∧
    (fontState .gData .hkNone 65 0 1).glyph.gpos.toNat < (fontState .gData .hkNone 65 0 1).glyph.gw.toNat ∧
    (fontState .gData .hkNone 65 1 2).glyph.gw.toNat ≤ (fontState .gData .hkNone 65 1 2).glyph.gpos.toNat ∧
    (fontState .gData .hkNone 65 1 2).glyph.grow.toNat + 1 = (fontState .gData .hkNone 65 1 2).glyph.gh.toNat ∧
    (fontState .gData .hkNone 65 0 2).glyph.grow.toNat + 1 < (fontState .gData .hkNone 65 0 2).glyph.gh.toNat := by decide

theorem witness_GendEmitsFontBlock :
    State.reset.glyph.gph = .gIdle ∧ (fontState .gData .hkNone 65 1 0).glyph.gph = .gData ∧
    ((fontState .gHdr .hkDone 65 0 0).glyph.gph = .gHdr ∧ (fontState .gHdr .hkDone 65 0 0).glyph.hk ≠ .hkNone) ∧
    (fontState .gHdr .hkNone 65 0 0).err.kind = .noError ∧ (fontState .gHdr .hkNone 65 0 0).glyph.gph = .gHdr ∧
    (fontState .gHdr .hkNone 65 0 0).glyph.hk = .hkNone := by decide

/-- A load of slot 129 and one of slot 0 open while a sheet is active, one of slot 1 while an image is. -/
theorem witness_BusySlotRefused :
    ((sheetState [] 128 0 0).err.kind = .noError ∧ (129 : Byte).toNat ≤ 129 ∧ (sheetState [] 128 0 0).busy 129 = true) ∧
    (imageState 2 1 0 0 0).busy 0 = true ∧
    ({ loadState 129 3 with remap := (sheetState [] 128 0 0).remap }.busy 129 = true ∧
      (loadState 129 3).pal.pselv = true ∧ (loadState 129 3).pal.psel.toNat ≤ 129) ∧
    ({ loadState 0 3 with remap := (sheetState [] 128 0 0).remap }.image.iph = .idle ∧
      { loadState 0 3 with remap := (sheetState [] 128 0 0).remap }.remap.rph = .active ∧ (loadState 0 3).pal.psel = 0) ∧
    ({ loadState 1 3 with image := (imageState 2 1 0 0 0).image }.image.iph = .active ∧
      { loadState 1 3 with image := (imageState 2 1 0 0 0).image }.remap.rph = .idle ∧
      1 ≤ (loadState 1 3).pal.psel.toNat ∧ (loadState 1 3).pal.pselv = true) := by
  decide

theorem witness_PalselOpensLoad :
    129 < (130 : Byte).toNat ∧ (sheetState [] 128 0 0).busy (1 : Byte).toNat = true ∧
    State.reset.err.kind = .noError ∧ (129 : Byte).toNat ≤ 129 ∧ State.reset.busy (129 : Byte).toNat = false := by decide

theorem witness_PalwStoresEntry :
    State.reset.pal.pselv = false ∧
    (loadState 129 15).err.kind = .noError ∧ (loadState 129 15).pal.pselv = true ∧
    (loadState 129 15).pal.psel.toNat ≤ 129 ∧ (loadState 129 15).busy (loadState 129 15).pal.psel.toNat = false ∧
    (loadState 129 15).pal.pidx = 15 ∧ (loadState 129 14).pal.pidx ≠ 15 := by decide

theorem witness_PalclrClearsSlot :
    129 < (130 : Byte).toNat ∧ (imageState 2 1 0 0 0).busy (0 : Byte).toNat = true ∧
    (loadState 129 3).err.kind = .noError ∧ (loadState 129 3).busy (129 : Byte).toNat = false ∧
    (loadState 129 3).pal.pselv = true ∧ (loadState 129 3).pal.psel = 129 ∧ (loadState 129 3).pal.psel ≠ 128 ∧
    State.reset.pal.pselv = false := by decide

/-- An `IPIX` and an `RPIX` that leave their units active. -/
theorem witness_ActiveUnitProtectsPalette :
    ((imageState 2 1 0 0 0).image.iph = .active ∧
      (nextOf (step ((imageState 2 1 0 0 0).withNextWord 0x41000003))).map (fun t => t.image.iph) = some .active) ∧
    ((sheetState [] 128 0 0).remap.rph = .active ∧
      (nextOf (step ((sheetState [] 128 0 0).withNextWord 0x51000005))).map (fun t => t.remap.rph) = some .active) := by
  decide

theorem witness_IbeginEmitsPaletteAndHeader :
    (imageState 2 1 0 0 0).image.iph = .active ∧ State.reset.isPresent 0 = false ∧
    ((loaded []).err.kind = .noError ∧ (loaded []).image.iph = .idle ∧ (loaded []).isPresent 0 = true) ∧
    (255 : Byte).getLsbD 0 = true ∧ 255 < (256 : BitVec 16).toNat ∧
    (254 : Byte).getLsbD 0 = false ∧ (255 : BitVec 16).toNat ≤ 255 ∧
    ∀ e, e < 16 → palEntry (loaded []).pal.palmem 0 e = some (tp e) := by decide

/-- The first pixel of a row, the second, the last of a row but not of the image, and the last of the image. -/
theorem witness_IpixPacksAndAdvances :
    State.reset.image.iph = .idle ∧ (15 : Byte).toNat ≤ 15 ∧ 15 < (16 : Byte).toNat ∧
    ((imageState 4 2 0 0 0).err.kind = .noError ∧ (imageState 4 2 0 0 0).image.iph = .active) ∧
    ((0 : Byte).getLsbD 0 = false ∧ (0 : Byte).toNat + 1 < (4 : Byte).toNat) ∧
    ((3 : Byte).getLsbD 0 = true ∧ (3 : Byte).toNat + 1 = (4 : Byte).toNat) ∧
    (0 : Byte).toNat + 1 < (2 : Byte).toNat ∧ (1 : Byte).toNat + 1 = (2 : Byte).toNat := by decide

theorem witness_PixelPairPacksAndUnpacks :
    (imageState 4 2 2 1 0).err.kind = .noError ∧ (imageState 4 2 2 1 0).ImageInv ∧
    (imageState 4 2 2 1 0).image.iph = .active ∧ (imageState 4 2 2 1 0).image.ix.toNat % 2 = 0 ∧
    (15 : Byte).toNat ≤ 15 ∧ (0 : Byte).toNat ≤ 15 ∧
    ∃ t u, exec (.ipix 15) (imageState 4 2 2 1 0) = .next t ∧ exec (.ipix 0) t = .next u :=
  ⟨rfl, by decide, rfl, rfl, by decide, by decide, _, _, rfl, rfl⟩

theorem witness_RbeginOpensSheet :
    (sheetState [] 128 0 0).remap.rph = .active ∧
    (State.reset.err.kind = .noError ∧ State.reset.remap.rph = .idle ∧ State.reset.isPresent 1 = false) ∧
    ((loaded []).err.kind = .noError ∧ (loaded []).remap.rph = .idle ∧ (loaded []).isPresent 1 = true) ∧
    (159 : Byte).toNat ≠ 160 ∧ (0 : BitVec 16).toNat = 0 ∧ (65409 : BitVec 16).toNat % 128 ≠ 0 ∧
    (160 : Byte).toNat = 160 ∧ (65408 : BitVec 16).toNat ≠ 0 ∧ (65408 : BitVec 16).toNat % 128 = 0 := by decide

/-- The reference palette and an override; the middle of a row, its last pixel, and the sheet's last pixel. -/
theorem witness_RpixLooksUpMasksAndAdvances :
    State.reset.remap.rph = .idle ∧ 15 < (16 : Byte).toNat ∧
    ((sheetState [] 128 158 0).err.kind = .noError ∧ (sheetState [] 128 158 0).remap.rph = .active ∧
      (sheetState [] 128 158 0).isPresent (2 + 0 % 128) = false ∧
      palEntry (sheetState [] 128 158 0).pal.palmem 1 15 = some (tp 15) ∧ (158 : Byte).toNat + 1 < 160) ∧
    ((sheetState [(palKey 2 5, 0xFFFFFF)] 256 159 128).isPresent (2 + 128 % 128) = true ∧
      palEntry (sheetState [(palKey 2 5, 0xFFFFFF)] 256 159 128).pal.palmem 2 5 = some 0xFFFFFF ∧
      (159 : Byte).toNat + 1 = 160 ∧ (128 : BitVec 16).toNat + 1 < (256 : BitVec 16).toNat) ∧
    (127 : BitVec 16).toNat + 1 = (128 : BitVec 16).toNat := by decide

theorem witness_OverrideIndependentOfFrame :
    (sheetState [] 256 0 0).err.kind = .noError ∧ (sheetState [] 256 0 0).remap.rph = .active ∧
    (sheetState [] 256 3 128).remap.rph = .active ∧
    (sheetState [] 256 3 128).remap.ry.toNat % 128 = (sheetState [] 256 0 0).remap.ry.toNat % 128 ∧
    (after (.rpix 5) (sheetState [] 256 0 0) State.out).isSome = true := by decide

theorem witness_NopChangesNothing : (0x800000 : OperandField) ≠ 0 := by decide

theorem witness_ResetTakesResetValues :
    (1 : OperandField) ≠ 0 ∧ (faultedState.present .resetPin).input = .resetPin :: [] ∧
    (faultedState.withNextWord 0x01000000).input = .command 0x01000000 :: [] := by decide

/-- A command that raises: the state is live before and faulted after. -/
theorem witness_FaultsArePrecise :
    State.reset.err.kind = .noError ∧
    after .gend .reset (fun t => t.err.kind) = some .commandError := by decide

/-- A command for each error kind. -/
theorem witness_ErrorKindsAndContext :
    after (.gbegin 0 0) .reset (fun t => t.err.kind) = some .parseError ∧
    after (.ipix 16) (imageState 2 1 0 0 0) (fun t => t.err.kind) = some .encodingError ∧
    after (.ibegin 3 1) (loaded []) (fun t => t.err.kind) = some .encodingError ∧
    after (.rpix 16) (sheetState [] 128 0 0) (fun t => t.err.kind) = some .encodingError ∧
    after (.rbegin 160 128) .reset (fun t => t.err.kind) = some .configError ∧
    after (.rbegin 160 0) (loaded []) (fun t => t.err.kind) = some .preconditionError ∧
    after (.palclr 130) .reset (fun t => t.err.kind) = some .commandError := by decide

/-- A command for each cause of `CommandError` (R189). -/
theorem witness_ErrorKindsAndContext_command :
    ([ (.gbegin 2 2, fontState .gHdr .hkNone 0 0 0), (.geol, .reset), (.ibegin 2 1, imageState 2 1 0 0 0),
       (.ibegin 2 1, .reset), (.ipix 0, .reset), (.rbegin 160 128, sheetState [] 128 0 0), (.rpix 0, .reset),
       (.palsel 0, imageState 2 1 0 0 0), (.palw 1 2 3, .reset) ] : List (Instr × State)).map
        (fun c => after c.1 c.2 (fun t => t.err.kind)) = List.replicate 9 (some .commandError) := by decide

theorem witness_FaultedBlockDiscards :
    faultedState.err.kind ≠ .noError ∧ (faultedState.withNextWord 0x01000001).input = .command 0x01000001 :: [] ∧
    (0x01000001 : Word) ≠ 0x01000000 ∧ (faultedState.withNextWord 0x01000000).input = .command 0x01000000 :: [] := by
  decide

theorem witness_FaultedMeaningsDiscard : faultedState.err.kind ≠ .noError ∧ Instr.nop ≠ .reset := by decide

theorem witness_OnlyResetLeavesFault :
    faultedState.err.kind ≠ .noError ∧ (∃ t, step (faultedState.present .resetPin) = .next t) ∧
    ∃ t, step (faultedState.present .popItem) = .next t := ⟨by decide, ⟨_, rfl⟩, _, rfl⟩

theorem witness_OutputIsAppendOnly : ∃ t, step (State.reset.withNextWord 0x10FFFFFF) = .next t := ⟨_, rfl⟩

theorem witness_OutputPortWord :
    { State.reset with out := [rgbItem 1, rgbItem 2], popped := 1 }.out.drop 1 = rgbItem 2 :: [] := by decide

theorem witness_QuantizerFrame :
    isQuantizerCommand (.qmask 1 2 3) = true ∧ ∃ t, exec (.qmask 1 2 3) .reset = .next t := ⟨rfl, _, rfl⟩

/-- A data-line character inside the cell, one past its last column, a header-line one, and an end of line. -/
theorem witness_GlyphFrame :
    (∃ t, exec (.gchr 0x58) (fontState .gHdr .hkDone 65 0 0) = .next t) ∧
    (fontState .gHdr .hkDone 65 0 0).glyph.gph ≠ .gData ∧
    (∃ t, exec (.gchr 0x58) (fontState .gData .hkNone 65 1 2) = .next t) ∧
    (fontState .gData .hkNone 65 1 2).glyph.gw.toNat ≤ (fontState .gData .hkNone 65 1 2).glyph.gpos.toNat ∧
    isGlyphCommand (.gchr 0x58) = true ∧ (∃ t, exec (.gchr 0x58) (fontState .gData .hkNone 65 1 1) = .next t) ∧
    Memory.wf fontUnlisted (fontState .gData .hkNone 65 1 1).font ∧ isGlyphCommand .geol = true ∧
    ∃ t, exec .geol (fontState .gData .hkNone 65 1 2) = .next t :=
  ⟨⟨_, rfl⟩, by decide, ⟨_, rfl⟩, by decide, rfl, ⟨_, rfl⟩, by decide, rfl, _, rfl⟩

theorem witness_PaletteFrame :
    isPaletteCommand (.palw 1 2 3) = true ∧ (∃ t, exec (.palw 1 2 3) (loadState 0 4) = .next t) ∧
    (0 : Nat) ≤ 129 ∧ 3 ≠ (loadState 0 4).pal.pidx.toNat := ⟨rfl, ⟨_, rfl⟩, by decide, by decide⟩

theorem witness_ImageFrame :
    isImageCommand (.ipix 9) = true ∧ ∃ t, exec (.ipix 9) (imageState 2 1 1 0 3) = .next t := ⟨rfl, _, rfl⟩

theorem witness_RemapFrame :
    isRemapCommand (.rpix 5) = true ∧ ∃ t, exec (.rpix 5) (sheetState [] 128 0 0) = .next t := ⟨rfl, _, rfl⟩

/-- Each unit's command, on a state and on one that differs in another unit. -/
theorem witness_UnitsAreIndependent :
    (isGlyphCommand .geol = true ∧
      { fontState .gHdr .hkDone 65 0 0 with image := (imageState 2 1 1 0 3).image }.glyph =
        (fontState .gHdr .hkDone 65 0 0).glyph ∧
      ∃ t, exec .geol (fontState .gHdr .hkDone 65 0 0) = .next t) ∧
    (isImageCommand (.ipix 9) = true ∧
      { imageState 2 1 1 0 3 with remap := (sheetState [] 128 0 0).remap }.image = (imageState 2 1 1 0 3).image ∧
      ∃ t, exec (.ipix 9) (imageState 2 1 1 0 3) = .next t) ∧
    (isRemapCommand (.rpix 5) = true ∧
      { sheetState [] 128 0 0 with image := (imageState 2 1 1 0 3).image }.remap = (sheetState [] 128 0 0).remap ∧
      ∃ t, exec (.rpix 5) (sheetState [] 128 0 0) = .next t) :=
  ⟨⟨rfl, rfl, _, rfl⟩, ⟨rfl, rfl, _, rfl⟩, rfl, rfl, _, rfl⟩

/-- A state in the middle of a data line, with a load open, meets the invariant and steps. -/
theorem witness_StepKeepsInvariant :
    ({ fontState .gData .hkNone 65 1 1 with pal := (loadState 129 0).pal, input := [.command 0x21000058] } : State).Inv ∧
    ∃ t, step { fontState .gData .hkNone 65 1 1 with pal := (loadState 129 0).pal, input := [.command 0x21000058] } =
      .next t :=
  ⟨⟨by decide, by decide, by decide, by decide, by decide, by decide⟩, _, rfl⟩

theorem witness_InvariantStatesAlwaysStep :
    ({ fontState .gHdr .hkNone 65 0 0 with input := [.command 0x23000000] } : State).Inv :=
  ⟨by decide, by decide, by decide, by decide, by decide, by decide⟩

/-- The state after a list of words is presented and served one by one. -/
def served : List Word → State → Option State
  | [], s => some s
  | w :: ws, s =>
    match step (s.present (.command w)) with
    | .next t => served ws t
    | .fault _ => none
    | .refused _ => none

theorem reachable_served {ws : List Word} {s t : State} (hs : Reachable s) (h : served ws s = some t) : Reachable t := by
  induction ws generalizing s with
  | nil => exact Option.some.inj h ▸ hs
  | cons w ws ih =>
    simp only [served] at h
    split at h
    · next hu => exact ih (.stepped (.presented (.command w) hs) hu) h
    · cases h
    · cases h

/-- A reachable state in each phase of the glyph unit, one with a load open, and a faulted one. -/
theorem witness_ReachableStatesMeetBounds :
    (∃ s, Reachable s ∧ s.glyph.gph = .gHdr) ∧ (∃ s, Reachable s ∧ s.glyph.gph = .gData) ∧
    (∃ s, Reachable s ∧ s.pal.pselv = true ∧ s.pal.psel = 129) ∧
    ∃ s t, Reachable s ∧ s.err.kind ≠ .noError ∧ step s = .next t ∧ t.err ≠ s.err :=
  ⟨⟨_, reachable_served (ws := [0x20FF0008]) .reset rfl, rfl⟩,
    ⟨_, reachable_served (ws := [0x20010001, 0x21000041, 0x22000000]) .reset rfl, rfl⟩,
    ⟨_, reachable_served (ws := [0x30000081]) .reset rfl, rfl, rfl⟩,
    ⟨_, _, .presented .resetPin (reachable_served (ws := [0x02000000]) .reset rfl), by decide, rfl, by decide⟩⟩

/-- A reachable state with an image active and one with a sheet active. -/
theorem witness_ReachableStatesMeetBounds_units :
    (∃ s, Reachable s ∧ s.image.iph = .active) ∧ ∃ s, Reachable s ∧ s.remap.rph = .active :=
  ⟨⟨_, reachable_served (ws := 0x30000000 :: List.replicate 16 0x31FFFFFF ++ [0x40020001]) .reset rfl, rfl⟩,
    ⟨_, reachable_served (ws := 0x30000001 :: List.replicate 16 0x31FFFFFF ++ [0x50A00080]) .reset rfl, rfl⟩⟩

/-- Each of the faults, in states that no run reaches. -/
theorem witness_StopsOnlyOutsideTheStore :
    exec (.ibegin 2 1) { State.reset with pal := { PaletteUnit.reset [] with present := 1 } } = .fault (.paletteUnwritten 0) ∧
    exec (.rpix 0) { State.reset with remap := (sheetState [] 128 0 0).remap } = .fault (.paletteUnwritten 1) ∧
    exec (.palw 1 2 3) (loadState 130 0) = .fault (.noSuchPaletteSlot 130) ∧
    exec (.gchr 0x58) (fontState .gData .hkNone 65 8 0) = .fault (.noSuchFontRow 8) := ⟨rfl, rfl, rfl, rfl⟩

/-- In the same states a check that fails, or a character past the cell, comes before the stop (R193, R128). -/
theorem witness_StopsOnlyOutsideTheStore_checks :
    errAfter (.ibegin 3 1) { State.reset with pal := { PaletteUnit.reset [] with present := 1 } } =
      some (.encodingError, 0x00010003) ∧
    errAfter (.palw 1 2 3) { loadState 130 0 with remap := (sheetState [] 128 0 0).remap } =
      some (.commandError, 0x31010203) ∧
    (after (.gchr 0x58) (fontState .gData .hkNone 65 8 2) id).isSome = true := by decide

theorem witness_CanonicalStorageIsUnique :
    Memory.wf palUnlisted (tpCells 0) ∧ Memory.wf fontUnlisted (fontWriteBit [] 65 0 0 true) := by decide

end Sys2Proof.Tests
end

section
/-! SUPPORT. The invariant of the block: what each kind of update, each command and each step does to it. -/

namespace Sys2Proof.Machine

variable {s t : State}

/-! ### Bounds of words and masks -/

theorem one_le_toNat_of_ne_zero {n : Nat} {x : BitVec n} (h : x ≠ 0) : 1 ≤ x.toNat :=
  Nat.pos_of_ne_zero fun e => h (BitVec.eq_of_toNat_eq (by simpa using e))

/-- A counter below a bound of its width goes up by one without wrapping. -/
theorem toNat_succ_of_lt {n : Nat} {x y : BitVec n} (h : x.toNat < y.toNat) : (x + 1).toNat = x.toNat + 1 :=
  toNat_add_one x (Nat.lt_of_le_of_lt h y.isLt)

/-- A counter that is not at the last value below its bound stays below it. -/
theorem toNat_succ_lt {n : Nat} {x y : BitVec n} (h : x.toNat < y.toNat) (hlast : x.toNat + 1 ≠ y.toNat) :
    (x + 1).toNat < y.toNat :=
  (toNat_succ_of_lt h).trans_lt (lt_of_le_of_ne h hlast)

/-- A mask with no row from `n` on keeps none when a row below `n` is written. -/
theorem setRow_lt {mask : Byte} {r n : Nat} {bit : Bool} (hm : mask.toNat < 2 ^ n) (hr : r < n) :
    (setRow mask r bit).toNat < 2 ^ n := by
  unfold setRow
  split
  · rw [BitVec.toNat_or]
    refine Nat.or_lt_two_pow hm ?_
    rw [BitVec.toNat_twoPow]
    exact (Nat.mod_le _ _).trans_lt (Nat.pow_lt_pow_right (by decide) hr)
  · rw [BitVec.toNat_and]
    exact Nat.and_le_left.trans_lt hm

/-- Every mask of a font that meets its invariant, listed or not, has rows of the cell only (R30). -/
theorem fontMask_lt (hf : s.FontInv) (k c : Nat) : (fontMask s.font k c).toNat < 2 ^ s.glyph.gh.toNat := by
  unfold fontMask Memory.read
  split
  · next v hv => exact (hf.2 _ (mem_of_memLookup hv)).2.2
  · exact Nat.two_pow_pos _

/-- A palette write gives a value to its own entry and takes none from another. -/
theorem palEntry_write_ne_none {m : Memory 24} {slot e slot' e' : Nat} {c : Colour} (he : e < 16) (he' : e' < 16)
    (h : slot' = slot ∧ e' = e ∨ palEntry m slot' e' ≠ none) : palEntry (palWrite m slot e c) slot' e' ≠ none := by
  rw [palEntry_write m c he he']
  split
  · exact Option.some_ne_none c
  · next hne => exact h.resolve_left hne

/-! ### Presence -/

theorem isPresent_setPresent {slot : Nat} {bit : Bool} (hslot : slot ≤ 129)
    (ht : t.pal.present = setPresent s.pal.present slot bit) (i : Nat) :
    t.isPresent i = if i = slot then bit else s.isPresent i := by
  rw [State.isPresent, ht, getLsbD_setPresent _ _ _ _ (Nat.lt_succ_of_le hslot)]
  rfl

/-- The slots present once `slot` is absent were present before, so their entries are written (R31). -/
theorem State.WrittenInv.of_absent {slot : Nat} (hs : s.WrittenInv)
    (hpres : ∀ i, t.isPresent i = if i = slot then false else s.isPresent i) (hmem : t.pal.palmem = s.pal.palmem) :
    ∀ i < 130, t.isPresent i = true → ∀ e < 16, palEntry t.pal.palmem i e ≠ none := by
  intro i hi hthere
  rw [hpres] at hthere
  split at hthere
  · cases hthere
  · rw [hmem]
    exact hs.1 i hi hthere

/-- A slot that is not busy is not the one an active image reads (R150). -/
theorem ne_zero_of_not_busy {slot : Nat} (hb : s.busy slot = false) (hi : s.image.iph = .active) : 0 ≠ slot := by
  rintro rfl
  simp [State.busy, hi] at hb

/-- A slot that is not busy is not the reference palette of an active sheet (R150). -/
theorem ne_one_of_not_busy {slot : Nat} (hb : s.busy slot = false) (hr : s.remap.rph = .active) : 1 ≠ slot := by
  rintro rfl
  simp [State.busy, hr] at hb

/-! ### The invariant after each kind of update -/

/-- With no font open the glyph unit's registers are unconstrained (R35 a, b). -/
theorem State.glyphInv_of_idle (h : s.glyph.gph = .gIdle) : s.GlyphInv :=
  ⟨fun hne => absurd h hne, fun hd => absurd (h.symm.trans hd) (by decide),
    fun hh => absurd (h.symm.trans hh) (by decide)⟩

theorem State.Inv.noEffect (hs : s.Inv) (h : NoEffect s t) : t.Inv := by
  rcases h with rfl | ⟨k, info, -, hk, rfl⟩
  · exact hs
  · obtain ⟨hreg, hfont, hpal, hwritten, hout, -⟩ := hs
    exact ⟨hreg, hfont, hpal, hwritten, hout, fun h => absurd h hk⟩

theorem State.Inv.emit {items : List OutItem} (hs : s.Inv) (hitems : ∀ it ∈ items, it.meaningful = true) :
    (s.emit items).Inv := by
  obtain ⟨hreg, hfont, hpal, hwritten, ⟨hmean, hpop⟩, herr⟩ := hs
  refine ⟨hreg, hfont, hpal, hwritten, ⟨fun it hit => ?_, ?_⟩, herr⟩
  · exact (List.mem_append.1 hit).elim (hmean it) (hitems it)
  · rw [State.emit_out, List.length_append]
    exact Nat.le_add_right_of_le hpop

theorem State.Inv.with_glyph {g : GlyphUnit} {f : Memory 8} (hs : s.Inv)
    (hglyph : { s with glyph := g, font := f }.GlyphInv) (hfont : { s with glyph := g, font := f }.FontInv) :
    { s with glyph := g, font := f }.Inv := by
  obtain ⟨⟨-, himage, hremap, hload⟩, -, hpal, hwritten, hout, herr⟩ := hs
  exact ⟨⟨hglyph, himage, hremap, hload⟩, hfont, hpal, hwritten, hout, herr⟩

theorem State.Inv.with_image {u : ImageUnit} (hs : s.Inv) (himage : { s with image := u }.ImageInv) :
    { s with image := u }.Inv := by
  obtain ⟨⟨hglyph, -, hremap, hload⟩, hrest⟩ := hs
  exact ⟨⟨hglyph, himage, hremap, hload⟩, hrest⟩

theorem State.Inv.with_remap {u : RemapUnit} (hs : s.Inv) (hremap : { s with remap := u }.RemapInv) :
    { s with remap := u }.Inv := by
  obtain ⟨⟨hglyph, himage, -, hload⟩, hrest⟩ := hs
  exact ⟨⟨hglyph, himage, hremap, hload⟩, hrest⟩

/-- An update of the palette store that changes the presence of no slot but one that is not busy leaves the active units
their palettes. -/
theorem State.Inv.with_pal {u : PaletteUnit} {slot : Nat} (hs : s.Inv) (hb : s.busy slot = false)
    (hpres : ∀ i, i ≠ slot → { s with pal := u }.isPresent i = s.isPresent i)
    (hload : { s with pal := u }.LoadInv) (hpal : { s with pal := u }.PalmemInv)
    (hwritten : { s with pal := u }.WrittenInv) : { s with pal := u }.Inv := by
  obtain ⟨⟨hglyph, himage, hremap, -⟩, hfont, -, -, hout, herr⟩ := hs
  refine ⟨⟨hglyph, fun hi => ?_, fun hr => ?_, hload⟩, hfont, hpal, hwritten, hout, herr⟩
  · rw [hpres 0 (ne_zero_of_not_busy hb hi)]
    exact himage hi
  · rw [hpres 1 (ne_one_of_not_busy hb hr)]
    exact hremap hr

/-- `input` is the host's side of the port; the invariant does not speak of it. -/
theorem State.Inv.with_input (hs : s.Inv) (rest : List HostEvent) : { s with input := rest }.Inv := hs

theorem State.Inv.popOne (hs : s.Inv) : s.popOne.Inv := by
  obtain ⟨hreg, hfont, hpal, hwritten, ⟨hmean, hpop⟩, herr⟩ := hs
  exact ⟨hreg, hfont, hpal, hwritten, ⟨hmean, State.popOne_le hpop⟩, herr⟩

/-- Reset needs of the state before it only what it does not write: `PALMEM` and `OUT` (R50). -/
theorem State.toReset_inv (hpal : s.PalmemInv) (hout : s.OutInv) : s.toReset.Inv := by
  refine ⟨⟨glyphInv_of_idle rfl, nofun, nofun, nofun⟩, ⟨Memory.wf_nil, by simp⟩, hpal,
    ⟨fun slot _ h => ?_, nofun⟩, hout, fun _ => rfl⟩
  rw [State.toReset_isPresent] at h
  cases h

theorem State.Inv.toReset (hs : s.Inv) : s.toReset.Inv := by
  obtain ⟨-, -, hpal, -, hout, -⟩ := hs
  exact State.toReset_inv hpal hout

/-! ### Each command keeps the invariant -/

theorem execGbegin_keeps_inv {a : Byte} {b : BitVec 16} (h : execGbegin a b s = .next t) (hs : s.Inv) : t.Inv := by
  obtain hno | ⟨-, -, ha, hb, hb8, rfl⟩ := execGbegin_next h
  · exact hs.noEffect hno
  · have hgh : (b.setWidth 4).toNat = b.toNat := by
      rw [BitVec.toNat_setWidth]; omega
    refine hs.with_glyph ⟨fun _ => ⟨one_le_toNat_of_ne_zero ha, ?_⟩, nofun, fun _ => ⟨rfl, rfl⟩⟩
      ⟨Memory.wf_nil, by simp⟩
    rw [hgh]
    exact ⟨one_le_toNat_of_ne_zero hb, hb8⟩

/-- A bit written inside the cell keeps the font's zero columns and rows (R30). -/
theorem fontWriteBit_fontInv {k c r : Nat} {bit : Bool} (hf : s.FontInv) (hk : k < 128)
    (hc : c < s.glyph.gw.toNat) (hr : r < s.glyph.gh.toNat) :
    { s with font := fontWriteBit s.font k c r bit }.FontInv := by
  have hc256 : c < 256 := hc.trans s.glyph.gw.isLt
  refine ⟨fontWriteBit_wf hf.1 .., fun cell hcell => ?_⟩
  rcases Memory.mem_write hcell with rfl | hcell
  · rw [fontKey_div hc256, fontKey_mod hc256]
    exact ⟨hk, hc, setRow_lt (fontMask_lt hf k c) hr⟩
  · exact hf.2 cell hcell

theorem execGchr_keeps_inv {cc : CharCode} (h : execGchr cc s = .next t) (hs : s.Inv) : t.Inv := by
  have ⟨⟨⟨hsize, hdata, hhdr⟩, _⟩, hfont, _⟩ := hs
  obtain hno | ⟨-, hp, ht⟩ | ⟨-, hp, hpos, -, rfl⟩ := execGchr_next h
  · exact hs.noEffect hno
  · rw [ht]
    exact hs.with_glyph ⟨hsize, fun hd => absurd (hp.symm.trans hd) (by decide), hhdr⟩ hfont
  · obtain ⟨hhk, hrow, -⟩ := hdata hp
    exact hs.with_glyph ⟨hsize, fun _ => ⟨hhk, hrow, (toNat_succ_of_lt hpos).trans_le hpos⟩,
      fun hh => absurd (hp.symm.trans hh) (by decide)⟩ (fontWriteBit_fontInv hfont s.glyph.gcode.isLt hpos hrow)

theorem execGeol_keeps_inv (h : execGeol s = .next t) (hs : s.Inv) : t.Inv := by
  have ⟨⟨⟨hsize, hdata, _⟩, _⟩, hfont, _⟩ := hs
  obtain hno | ⟨-, hp, rfl⟩ | ⟨-, hp, -, -, rfl⟩ | ⟨-, hp, -, hlast, rfl⟩ := execGeol_next h
  · exact hs.noEffect hno
  · have hopen := hsize (by simp [hp])
    exact hs.with_glyph ⟨fun _ => hopen, fun _ => ⟨rfl, hopen.2.1, Nat.zero_le _⟩, nofun⟩ hfont
  · have hopen := hsize (by simp [hp])
    exact hs.with_glyph ⟨fun _ => hopen, nofun, fun _ => ⟨rfl, rfl⟩⟩ hfont
  · obtain ⟨hhk, hrow, -⟩ := hdata hp
    exact hs.with_glyph ⟨hsize, fun _ => ⟨hhk, toNat_succ_lt hrow hlast, Nat.zero_le _⟩,
      fun hh => absurd (hp.symm.trans hh) (by decide)⟩ hfont

theorem execGend_keeps_inv (h : execGend s = .next t) (hs : s.Inv) : t.Inv := by
  have ⟨_, hfont, _⟩ := hs
  obtain hno | ⟨-, -, -, rfl⟩ := execGend_next h
  · exact hs.noEffect hno
  · have hidle : { s with glyph := { s.glyph with gph := .gIdle } }.GlyphInv := State.glyphInv_of_idle rfl
    refine (hs.with_glyph hidle hfont).emit fun it hit => ?_
    obtain ⟨v, -, rfl⟩ := List.mem_map.1 hit
    exact meaningful_byteItem .font v

theorem execPalsel_keeps_inv {p : Byte} (h : execPalsel p s = .next t) (hs : s.Inv) : t.Inv := by
  have ⟨_, _, hpal, hwritten, _⟩ := hs
  obtain hno | ⟨-, hp, hb, ht⟩ := execPalsel_next h
  · exact hs.noEffect hno
  · have hpres := isPresent_setPresent (s := s) (t := t) hp (by rw [ht])
    have hslots := hwritten.of_absent hpres (by rw [ht])
    subst ht
    exact hs.with_pal hb (fun i hi => (hpres i).trans (if_neg hi))
      (fun _ => ⟨hp, (hpres p.toNat).trans (if_pos rfl)⟩) hpal ⟨hslots, nofun⟩

theorem execPalclr_keeps_inv {p : Byte} (h : execPalclr p s = .next t) (hs : s.Inv) : t.Inv := by
  have ⟨⟨_, _, _, hload⟩, _, hpal, hwritten, _⟩ := hs
  obtain hno | ⟨-, hp, hb, ht⟩ := execPalclr_next h
  · exact hs.noEffect hno
  · have hpres := isPresent_setPresent (s := s) (t := t) hp (by rw [ht])
    have hslots := hwritten.of_absent hpres (by rw [ht])
    have hstays : t.pal.pselv = true → s.pal.pselv = true := by rw [ht]; simp +contextual
    subst ht
    refine hs.with_pal hb (fun i hi => (hpres i).trans (if_neg hi)) (fun hopen => ?_) hpal
      ⟨hslots, fun hopen => hwritten.2 (hstays hopen)⟩
    obtain ⟨hsel, habsent⟩ := hload (hstays hopen)
    refine ⟨hsel, (hpres s.pal.psel.toNat).trans ?_⟩
    rw [habsent, ite_self]

/-- The entries of a load's slot that stand written once its next one is: those before the pointer, and that one. -/
theorem palStored_written {c : Colour} {e : Nat} (hs : s.WrittenInv) (hopen : s.pal.pselv = true)
    (he : e ≤ s.pal.pidx.toNat) : palEntry (palStored s.pal c).palmem s.pal.psel.toNat e ≠ none := by
  have hlt := s.pal.pidx.isLt
  rw [(palStored_cases s.pal c).1]
  refine palEntry_write_ne_none hlt (by omega) ?_
  rcases Nat.lt_or_eq_of_le he with he | he
  · exact .inr (hs.2 hopen e he)
  · exact .inl ⟨rfl, he⟩

theorem palStored_palmemInv {c : Colour} (hs : s.PalmemInv) (hsel : s.pal.psel.toNat ≤ 129) :
    { s with pal := palStored s.pal c }.PalmemInv := by
  rw [State.PalmemInv, (palStored_cases s.pal c).1]
  refine ⟨palWrite_wf hs.1 .., fun cell hcell => ?_⟩
  rcases Memory.mem_write hcell with rfl | hcell
  · exact palKey_lt (Nat.lt_succ_of_le hsel) s.pal.pidx.isLt
  · exact hs.2 cell hcell

/-- A stored entry leaves every entry that was written so. -/
theorem palStored_keeps_written {c : Colour} {slot e : Nat} (he : e < 16)
    (h : palEntry s.pal.palmem slot e ≠ none) : palEntry (palStored s.pal c).palmem slot e ≠ none := by
  rw [(palStored_cases s.pal c).1]
  exact palEntry_write_ne_none s.pal.pidx.isLt he (.inr h)

theorem execPalw_keeps_inv {r g b : Byte} (h : execPalw r g b s = .next t) (hs : s.Inv) : t.Inv := by
  have ⟨⟨_, _, _, hload⟩, _, hpal, hwritten, _⟩ := hs
  obtain hno | ⟨-, hopen, hb, hsel, rfl⟩ := execPalw_next h
  · exact hs.noEffect hno
  have hpalmem := palStored_palmemInv (c := colour r g b) hpal hsel
  have hentry := fun e => palStored_written (c := colour r g b) (e := e) hwritten hopen
  obtain ⟨-, hpsel, ⟨hlast, hpresent, hclosed, -⟩ | ⟨hnotlast, hpresent, hstays, hidx⟩⟩ :=
    palStored_cases s.pal (colour r g b)
  · have hpres := isPresent_setPresent (s := s) (t := { s with pal := palStored s.pal (colour r g b) }) hsel hpresent
    have hnoload : ¬ (palStored s.pal (colour r g b)).pselv = true := by simp [hclosed]
    refine hs.with_pal hb (fun i hi => (hpres i).trans (if_neg hi)) (fun ho => absurd ho hnoload) hpalmem
      ⟨fun slot hslot hthere e he => ?_, fun ho => absurd ho hnoload⟩
    rw [hpres] at hthere
    split at hthere
    · next heq =>
      subst heq
      exact hentry e (by rw [hlast]; exact Nat.le_of_lt_succ he)
    · exact palStored_keeps_written he (hwritten.1 slot hslot hthere e he)
  · have hpres : ∀ i, { s with pal := palStored s.pal (colour r g b) }.isPresent i = s.isPresent i :=
      fun i => congrArg (·.getLsbD i) hpresent
    have hnext : (s.pal.pidx + 1).toNat = s.pal.pidx.toNat + 1 := by
      have hne : s.pal.pidx.toNat ≠ 15 := fun e => hnotlast (BitVec.eq_of_toNat_eq e)
      exact toNat_add_one _ (by have := s.pal.pidx.isLt; omega)
    refine hs.with_pal hb (fun i _ => hpres i) (fun _ => ?_) hpalmem
      ⟨fun slot hslot hthere e he => ?_, fun _ e he => ?_⟩
    · simp only [hpsel, hpres]
      exact hload hopen
    · rw [hpres] at hthere
      exact palStored_keeps_written he (hwritten.1 slot hslot hthere e he)
    · simp only [hidx, hnext] at he
      simp only [hpsel]
      exact hentry e (Nat.le_of_lt_succ he)

/-- A good `IBEGIN` opens an image inside its bounds, or none (R160). -/
theorem imageOpened_inv {a : Byte} {b : BitVec 16} (ha : a.toNat % 2 = 0) (hb : b.toNat ≤ 255)
    (hpres : s.isPresent 0 = true) : { s with image := imageOpened a b }.ImageInv := by
  intro hactive
  have hne : a ≠ 0 ∧ b ≠ 0 := by
    by_contra hne
    rw [imageOpened, if_neg hne] at hactive
    cases hactive
  have h1 := one_le_toNat_of_ne_zero hne.1
  have h2 := one_le_toNat_of_ne_zero hne.2
  have h3 := a.isLt
  have hih : (b.setWidth 8).toNat = b.toNat := by
    rw [BitVec.toNat_setWidth]; omega
  simp only [imageOpened, hih]
  exact ⟨ha, by omega, by omega, h2, h1, h2, hpres⟩

theorem imageItems_meaningful {colours : List Colour} {width height : Byte} :
    ∀ it ∈ imageItems colours width height, it.meaningful = true := by
  intro it hit
  rcases List.mem_append.1 hit with hit | hit
  · obtain ⟨c, -, rfl⟩ := List.mem_map.1 hit
    exact meaningful_palItem _
  · obtain ⟨v, -, rfl⟩ := List.mem_map.1 hit
    exact meaningful_byteItem .pix v

theorem execIbegin_keeps_inv {a : Byte} {b : BitVec 16} (h : execIbegin a b s = .next t) (hs : s.Inv) : t.Inv := by
  obtain hno | ⟨-, -, hpres, ha, hb, colours, -, rfl⟩ := execIbegin_next h
  · exact hs.noEffect hno
  · exact (hs.with_image (imageOpened_inv ha hb hpres)).emit imageItems_meaningful

/-- The next pixel of an active image is inside it, or the image is over (R163). -/
theorem imageAdvance_inv {u : ImageUnit} (hs : { s with image := u }.ImageInv) :
    { s with image := imageAdvance u }.ImageInv := by
  obtain ⟨hx, heq⟩ | ⟨-, hy, heq⟩ | ⟨-, -, heq⟩ := imageAdvance_cases u
  · rw [heq]
    intro hactive
    obtain ⟨heven, hw2, hw254, hh, hix, hiy, hpres⟩ := hs hactive
    exact ⟨heven, hw2, hw254, hh, toNat_succ_lt hix hx, hiy, hpres⟩
  · rw [heq]
    intro hactive
    obtain ⟨heven, hw2, hw254, hh, hix, hiy, hpres⟩ := hs hactive
    exact ⟨heven, hw2, hw254, hh, Nat.zero_lt_of_lt hix, toNat_succ_lt hiy hy, hpres⟩
  · rw [heq]
    exact nofun

theorem execIpix_keeps_inv {idx : Byte} (h : execIpix idx s = .next t) (hs : s.Inv) : t.Inv := by
  have ⟨⟨_, himage, _⟩, _⟩ := hs
  obtain hno | ⟨-, -, -, -, rfl⟩ | ⟨-, -, -, -, rfl⟩ := execIpix_next h
  · exact hs.noEffect hno
  · exact hs.with_image (imageAdvance_inv himage)
  · exact (hs.with_image (imageAdvance_inv himage)).emit
      (List.forall_mem_singleton.2 (meaningful_byteItem .pix _))

theorem execRbegin_keeps_inv {a : Byte} {b : BitVec 16} (h : execRbegin a b s = .next t) (hs : s.Inv) : t.Inv := by
  obtain hno | ⟨-, -, hpres, -, hb, hmul, rfl⟩ := execRbegin_next h
  · exact hs.noEffect hno
  · have hpos := one_le_toNat_of_ne_zero hb
    have hlo : 128 ≤ b.toNat := by omega
    have hhi : b.toNat ≤ 65408 := by have := b.isLt; omega
    exact hs.with_remap fun _ => ⟨hmul, hlo, hhi, Nat.zero_lt_succ 159, hpos, hpres⟩

/-- The next pixel of an active sheet is inside it, or the sheet is over (R173). -/
theorem remapAdvance_inv (hs : s.RemapInv) : { s with remap := remapAdvance s.remap }.RemapInv := by
  obtain ⟨hx, heq⟩ | ⟨-, hy, heq⟩ | ⟨-, -, heq⟩ := remapAdvance_cases s.remap
  · rw [heq]
    intro hactive
    obtain ⟨hmul, hlo, hhi, hrx, hry, hpres⟩ := hs hactive
    exact ⟨hmul, hlo, hhi, toNat_succ_lt (y := 160) hrx hx, hry, hpres⟩
  · rw [heq]
    intro hactive
    obtain ⟨hmul, hlo, hhi, hrx, hry, hpres⟩ := hs hactive
    exact ⟨hmul, hlo, hhi, Nat.zero_lt_of_lt hrx, toNat_succ_lt hry hy, hpres⟩
  · rw [heq]
    exact nofun

theorem execRpix_keeps_inv {idx : Byte} (h : execRpix idx s = .next t) (hs : s.Inv) : t.Inv := by
  have ⟨⟨_, _, hremap, _⟩, _⟩ := hs
  obtain hno | ⟨-, -, -, c, -, rfl⟩ := execRpix_next h
  · exact hs.noEffect hno
  · exact (hs.with_remap (remapAdvance_inv hremap)).emit
      (List.forall_mem_singleton.2 (meaningful_rgbItem _))

theorem exec_keeps_inv {i : Instr} (h : exec i s = .next t) (hs : s.Inv) : t.Inv := by
  cases i with
  | nop => exact next_inj ((execNop_eq s).symm.trans h) ▸ hs
  | reset => exact next_inj h ▸ hs.toReset
  | q565 r g b =>
    obtain hno | ⟨-, rfl⟩ := execQ565_next h
    · exact hs.noEffect hno
    · exact hs.emit (List.forall_mem_singleton.2 (meaningful_palItem _))
  | qmask r g b =>
    obtain hno | ⟨-, rfl⟩ := execQmask_next h
    · exact hs.noEffect hno
    · exact hs.emit (List.forall_mem_singleton.2 (meaningful_rgbItem _))
  | gbegin a b => exact execGbegin_keeps_inv h hs
  | gchr cc => exact execGchr_keeps_inv h hs
  | geol => exact execGeol_keeps_inv h hs
  | gend => exact execGend_keeps_inv h hs
  | palsel p => exact execPalsel_keeps_inv h hs
  | palw r g b => exact execPalw_keeps_inv h hs
  | palclr p => exact execPalclr_keeps_inv h hs
  | ibegin a b => exact execIbegin_keeps_inv h hs
  | ipix idx => exact execIpix_keeps_inv h hs
  | rbegin a b => exact execRbegin_keeps_inv h hs
  | rpix idx => exact execRpix_keeps_inv h hs

/-! ### The step -/

/-- A step serves an event without a command, or executes one on the state with the event taken. -/
theorem step_cases (h : step s = .next t) : serve s = .done t ∨ ∃ i u, serve s = .run i u ∧ exec i u = .next t := by
  unfold step at h
  split at h
  · next u hu => exact .inl (next_inj h ▸ hu)
  · next i u hu => exact .inr ⟨i, u, hu, h⟩

theorem serve_done_keeps_inv (h : serve s = .done t) (hs : s.Inv) : t.Inv := by
  obtain rfl | ⟨rest, rfl | rfl | rfl | ⟨w, hlive, rfl⟩⟩ := serve_done h
  · exact hs
  · exact hs.with_input rest
  · exact hs.toReset.with_input rest
  · exact hs.popOne.with_input rest
  · exact (hs.noEffect (.inr ⟨.commandError, w, hlive, by decide, rfl⟩)).with_input rest

theorem step_keeps_inv (h : step s = .next t) (hs : s.Inv) : t.Inv := by
  obtain hdone | ⟨i, u, hrun, hexec⟩ := step_cases h
  · exact serve_done_keeps_inv hdone hs
  · obtain ⟨w, rest, -, rfl, -⟩ := serve_run hrun
    exact exec_keeps_inv hexec (hs.with_input rest)

theorem reset_inv : State.reset.Inv :=
  State.toReset_inv (s := State.reset) ⟨Memory.wf_nil, nofun⟩ ⟨nofun, Nat.zero_le _⟩

/-- Every state a run from reset reaches meets the invariant. -/
theorem Reachable.inv (h : Reachable s) : s.Inv := by
  induction h with
  | reset => exact reset_inv
  | presented e _ ih => exact ih.with_input _
  | stepped _ hstep ih => exact step_keeps_inv hstep ih

end Sys2Proof.Machine

open Sys2Proof Sys2Proof.Machine

/-- Settles O49: every command keeps each part of the invariant, and serving an event without a command does too. -/
theorem stepKeepsInvariant : Obligations.StepKeepsInvariant :=
  fun _ _ hs h => step_keeps_inv h hs

/-- Settles O50: the reset state is a reset of itself, with empty stores. -/
theorem resetMeetsInvariant : Obligations.ResetMeetsInvariant :=
  reset_inv
end

section
/-! SUPPORT. What each command can change, where a meaning stops, and what a unit's commands depend on. -/

namespace Sys2Proof.Machine

variable {s t s' : State}

/-! ### The commands of each unit (R83) -/

theorem isGlyphCommand_iff {i : Instr} :
    isGlyphCommand i = true ↔ (∃ a b, i = .gbegin a b) ∨ (∃ cc, i = .gchr cc) ∨ i = .geol ∨ i = .gend := by
  cases i <;> simp [isGlyphCommand, familyOf]

theorem isPaletteCommand_iff {i : Instr} :
    isPaletteCommand i = true ↔ (∃ p, i = .palsel p) ∨ (∃ r g b, i = .palw r g b) ∨ ∃ p, i = .palclr p := by
  cases i <;> simp [isPaletteCommand, familyOf]

theorem isImageCommand_iff {i : Instr} :
    isImageCommand i = true ↔ (∃ a b, i = .ibegin a b) ∨ ∃ idx, i = .ipix idx := by
  cases i <;> simp [isImageCommand, familyOf]

theorem isRemapCommand_iff {i : Instr} :
    isRemapCommand i = true ↔ (∃ a b, i = .rbegin a b) ∨ ∃ idx, i = .rpix idx := by
  cases i <;> simp [isRemapCommand, familyOf]

/-! ### Frames -/

theorem NoEffect.font_eq (h : NoEffect s t) : t.font = s.font := by rw [h.eq_except_err]
theorem NoEffect.pal_eq (h : NoEffect s t) : t.pal = s.pal := by rw [h.eq_except_err]
theorem NoEffect.out_eq (h : NoEffect s t) : t.out = s.out := by rw [h.eq_except_err]

theorem glyphCommand_frame {i : Instr} (hi : isGlyphCommand i = true) (h : exec i s = .next t) :
    t = { s with glyph := t.glyph, font := t.font, out := t.out, err := t.err } := by
  obtain ⟨a, b, rfl⟩ | ⟨cc, rfl⟩ | rfl | rfl := isGlyphCommand_iff.1 hi
  · obtain hno | ⟨-, -, -, -, -, rfl⟩ := execGbegin_next h
    · rw [hno.eq_except_err]
    · rfl
  · obtain hno | ⟨-, -, ht⟩ | ⟨-, -, -, -, rfl⟩ := execGchr_next h
    · rw [hno.eq_except_err]
    · rw [ht]
    · rfl
  · obtain hno | ⟨-, -, rfl⟩ | ⟨-, -, -, -, rfl⟩ | ⟨-, -, -, -, rfl⟩ := execGeol_next h
    · rw [hno.eq_except_err]
    · rfl
    · rfl
    · rfl
  · obtain hno | ⟨-, -, -, rfl⟩ := execGend_next h
    · rw [hno.eq_except_err]
    · rfl

theorem execGeol_font_out (h : execGeol s = .next t) : t.font = s.font ∧ t.out = s.out := by
  obtain hno | ⟨-, -, rfl⟩ | ⟨-, -, -, -, rfl⟩ | ⟨-, -, -, -, rfl⟩ := execGeol_next h
  · exact ⟨hno.font_eq, hno.out_eq⟩
  · exact ⟨rfl, rfl⟩
  · exact ⟨rfl, rfl⟩
  · exact ⟨rfl, rfl⟩

theorem execGend_font (h : execGend s = .next t) : t.font = s.font := by
  obtain hno | ⟨-, -, -, rfl⟩ := execGend_next h
  · exact hno.font_eq
  · rfl

theorem execGbegin_out {a : Byte} {b : BitVec 16} (h : execGbegin a b s = .next t) : t.out = s.out := by
  obtain hno | ⟨-, -, -, -, -, rfl⟩ := execGbegin_next h
  · exact hno.out_eq
  · rfl

theorem execGchr_out {cc : CharCode} (h : execGchr cc s = .next t) : t.out = s.out := by
  obtain hno | ⟨-, -, ht⟩ | ⟨-, -, -, -, rfl⟩ := execGchr_next h
  · exact hno.out_eq
  · rw [ht]
  · rfl

/-- `GCHR` leaves the font as it is, or writes one bit on a data line, inside the cell (R128). -/
theorem execGchr_font {cc : CharCode} (h : execGchr cc s = .next t) :
    t.font = s.font ∨ s.glyph.gph = .gData ∧ s.glyph.gpos.toNat < s.glyph.gw.toNat ∧
      t.font = fontWriteBit s.font s.glyph.gcode.toNat s.glyph.gpos.toNat s.glyph.grow.toNat (ink cc) := by
  obtain hno | ⟨-, -, ht⟩ | ⟨-, hp, hpos, -, rfl⟩ := execGchr_next h
  · exact .inl hno.font_eq
  · exact .inl (by rw [ht])
  · exact .inr ⟨hp, hpos, rfl⟩

/-- A command of the palette store leaves everything but the store and the error registers. -/
theorem paletteCommand_frame {i : Instr} (hi : isPaletteCommand i = true) (h : exec i s = .next t) :
    t = { s with pal := t.pal, err := t.err } := by
  obtain ⟨p, rfl⟩ | ⟨r, g, b, rfl⟩ | ⟨p, rfl⟩ := isPaletteCommand_iff.1 hi
  · obtain hno | ⟨-, -, -, rfl⟩ := execPalsel_next h
    · rw [hno.eq_except_err]
    · rfl
  · obtain hno | ⟨-, -, -, -, rfl⟩ := execPalw_next h
    · rw [hno.eq_except_err]
    · rfl
  · obtain hno | ⟨-, -, -, rfl⟩ := execPalclr_next h
    · rw [hno.eq_except_err]
    · rfl

/-- `PALMEM` is written by `PALW` only, and there at (`PSEL`, `PIDX`) (R151, R152, R153). -/
theorem paletteCommand_palmem {i : Instr} (hi : isPaletteCommand i = true) (h : exec i s = .next t) :
    t.pal.palmem = s.pal.palmem ∨
      ∃ r g b, i = .palw r g b ∧
        t.pal.palmem = palWrite s.pal.palmem s.pal.psel.toNat s.pal.pidx.toNat (colour r g b) := by
  obtain ⟨p, rfl⟩ | ⟨r, g, b, rfl⟩ | ⟨p, rfl⟩ := isPaletteCommand_iff.1 hi
  · obtain hno | ⟨-, -, -, rfl⟩ := execPalsel_next h
    · exact .inl (by rw [hno.pal_eq])
    · exact .inl rfl
  · obtain hno | ⟨-, -, -, -, rfl⟩ := execPalw_next h
    · exact .inl (by rw [hno.pal_eq])
    · exact .inr ⟨r, g, b, rfl, (palStored_cases s.pal _).1⟩
  · obtain hno | ⟨-, -, -, rfl⟩ := execPalclr_next h
    · exact .inl (by rw [hno.pal_eq])
    · exact .inl rfl

theorem imageCommand_frame {i : Instr} (hi : isImageCommand i = true) (h : exec i s = .next t) :
    t = { s with image := t.image, out := t.out, err := t.err } := by
  obtain ⟨a, b, rfl⟩ | ⟨idx, rfl⟩ := isImageCommand_iff.1 hi
  · obtain hno | ⟨-, -, -, -, -, colours, -, rfl⟩ := execIbegin_next h
    · rw [hno.eq_except_err]
    · rfl
  · obtain hno | ⟨-, -, -, -, rfl⟩ | ⟨-, -, -, -, rfl⟩ := execIpix_next h
    · rw [hno.eq_except_err]
    · rfl
    · rfl

theorem remapCommand_frame {i : Instr} (hi : isRemapCommand i = true) (h : exec i s = .next t) :
    t = { s with remap := t.remap, out := t.out, err := t.err } := by
  obtain ⟨a, b, rfl⟩ | ⟨idx, rfl⟩ := isRemapCommand_iff.1 hi
  · obtain hno | ⟨-, -, -, -, -, -, rfl⟩ := execRbegin_next h
    · rw [hno.eq_except_err]
    · rfl
  · obtain hno | ⟨-, -, -, c, -, rfl⟩ := execRpix_next h
    · rw [hno.eq_except_err]
    · rfl

/-! ### Where a meaning stops -/

/-- A meaning's answer is never refused, and is a fault exactly where `P` says so. -/
def StopsExactly (r : Result) (P : Fault → Prop) : Prop :=
  (∀ x, r ≠ .refused x) ∧ ∀ f, r = .fault f ↔ P f

theorem StopsExactly.next (t : State) : StopsExactly (.next t) fun _ => False :=
  ⟨nofun, fun _ => ⟨nofun, nofun⟩⟩

theorem StopsExactly.fault (g : Fault) : StopsExactly (.fault g) fun f => f = g :=
  ⟨nofun, fun _ => ⟨fun h => by injection h with h; exact h.symm, fun h => h ▸ rfl⟩⟩

theorem StopsExactly.congr {r : Result} {P Q : Fault → Prop} (h : StopsExactly r P) (hPQ : ∀ f, P f ↔ Q f) :
    StopsExactly r Q :=
  ⟨h.1, fun f => (h.2 f).trans (hPQ f)⟩

theorem StopsExactly.ite {c : Prop} [Decidable c] {x y : Result} {P Q : Fault → Prop} (hx : StopsExactly x P)
    (hy : StopsExactly y Q) : StopsExactly (if c then x else y) fun f => c ∧ P f ∨ ¬ c ∧ Q f := by
  by_cases hc : c
  · rw [if_pos hc]
    exact hx.congr fun f => by simp [hc]
  · rw [if_neg hc]
    exact hy.congr fun f => by simp [hc]

/-- A check that raises comes before the stop of what follows it (R193). -/
theorem StopsExactly.check {c : Prop} [Decidable c] {k : ErrKind} {info : Word} {y : Result} {Q : Fault → Prop}
    (hy : StopsExactly y Q) : StopsExactly (if c then raise k info s else y) fun f => ¬ c ∧ Q f :=
  (StopsExactly.ite (.next (s.recordError k info)) hy).congr fun f => by simp

theorem StopsExactly.unlessFaulted {body : Result} {P : Fault → Prop} (h : StopsExactly body P) :
    StopsExactly (unlessFaulted s body) fun f => s.err.kind = .noError ∧ P f := by
  by_cases hl : s.err.kind = .noError
  · rw [unlessFaulted_live hl]
    exact h.congr fun f => by simp [hl]
  · rw [unlessFaulted_faulted hl]
    exact (StopsExactly.next s).congr fun f => by simp [hl]

theorem StopsExactly.of_next {r : Result} (h : ∃ t, r = .next t) : StopsExactly r fun _ => False := by
  obtain ⟨t, rfl⟩ := h
  exact .next t

theorem unlessFaulted_total {body : Result} (h : ∃ t, body = .next t) : ∃ t, unlessFaulted s body = .next t := by
  unfold unlessFaulted
  split
  · exact ⟨s, rfl⟩
  · exact h

theorem ite_total {c : Prop} [Decidable c] {x y : Result} (hx : ∃ t, x = .next t) (hy : ∃ t, y = .next t) :
    ∃ t, (if c then x else y) = .next t := by
  split
  · exact hx
  · exact hy

theorem execGbegin_total (a : Byte) (b : BitVec 16) (s : State) : ∃ t, execGbegin a b s = .next t :=
  unlessFaulted_total (ite_total ⟨_, rfl⟩ (ite_total ⟨_, rfl⟩ (ite_total ⟨_, rfl⟩ ⟨_, rfl⟩)))

/-- A character of a header line is read or raises an error (R124 to R127). -/
theorem gchrHeader_total (cc : CharCode) (s : State) : ∃ t, gchrHeader cc s = .next t := by
  unfold gchrHeader
  split
  · exact ite_total ⟨_, rfl⟩ (ite_total ⟨_, rfl⟩ ⟨_, rfl⟩)
  · refine ite_total ⟨_, rfl⟩ ?_
    split
    · exact ⟨_, rfl⟩
    · exact ⟨_, rfl⟩
  · unfold gchrHexDigit
    split
    · exact ⟨_, rfl⟩
    · exact ite_total ⟨_, rfl⟩ ⟨_, rfl⟩
  · exact ⟨_, rfl⟩

theorem execGeol_total (s : State) : ∃ t, execGeol s = .next t := by
  refine unlessFaulted_total ?_
  split
  · exact ⟨_, rfl⟩
  · unfold geolHeader
    split
    · exact ⟨_, rfl⟩
    · exact ⟨_, rfl⟩
    · exact ⟨_, rfl⟩
    · exact ⟨_, rfl⟩
  · exact ite_total ⟨_, rfl⟩ (ite_total ⟨_, rfl⟩ ⟨_, rfl⟩)

theorem execGend_total (s : State) : ∃ t, execGend s = .next t := by
  refine unlessFaulted_total ?_
  split
  · exact ⟨_, rfl⟩
  · exact ⟨_, rfl⟩
  · exact ite_total ⟨_, rfl⟩ ⟨_, rfl⟩

theorem execPalsel_total (p : Byte) (s : State) : ∃ t, execPalsel p s = .next t :=
  unlessFaulted_total (ite_total ⟨_, rfl⟩ (ite_total ⟨_, rfl⟩ ⟨_, rfl⟩))

theorem execPalclr_total (p : Byte) (s : State) : ∃ t, execPalclr p s = .next t :=
  unlessFaulted_total (ite_total ⟨_, rfl⟩ (ite_total ⟨_, rfl⟩ ⟨_, rfl⟩))

theorem execIpix_total (idx : Byte) (s : State) : ∃ t, execIpix idx s = .next t :=
  unlessFaulted_total (ite_total ⟨_, rfl⟩ (ite_total ⟨_, rfl⟩ (ite_total ⟨_, rfl⟩ ⟨_, rfl⟩)))

theorem execRbegin_total (a : Byte) (b : BitVec 16) (s : State) : ∃ t, execRbegin a b s = .next t :=
  unlessFaulted_total (ite_total ⟨_, rfl⟩ (ite_total ⟨_, rfl⟩ (ite_total ⟨_, rfl⟩ ⟨_, rfl⟩)))

/-- The sixteen colours cannot be read exactly when one of them was never written. -/
theorem palColours_eq_none {m : Memory 24} {slot : Nat} :
    palColours m slot = none ↔ ∃ e, e < 16 ∧ palEntry m slot e = none := by
  rw [palColours, allSome_eq_none, List.mem_map]
  simp [Config.palN]

/-- A data-line `GCHR` stops inside the cell on a row that does not exist, and nowhere else (log 9). -/
theorem execGchr_stops (cc : CharCode) (s : State) :
    StopsExactly (execGchr cc s) fun f => s.err.kind = .noError ∧ f = .noSuchFontRow s.glyph.grow.toNat ∧
      s.glyph.gph = .gData ∧ s.glyph.gpos.toNat < s.glyph.gw.toNat ∧ 7 < s.glyph.grow.toNat := by
  have hdata : StopsExactly (gchrData cc s) fun f => f = .noSuchFontRow s.glyph.grow.toNat ∧
      s.glyph.gpos.toNat < s.glyph.gw.toNat ∧ 7 < s.glyph.grow.toNat :=
    (StopsExactly.ite (.ite (.next _) (.fault _)) (.next s)).congr fun f => by
      have hrow : ¬ s.glyph.grow.toNat < Config.maxH ↔ 7 < s.glyph.grow.toNat := Nat.not_lt
      rw [hrow]
      tauto
  refine StopsExactly.unlessFaulted ?_
  split
  · next hp => exact (StopsExactly.next _).congr fun f => by simp [hp]
  · next hp => exact (StopsExactly.of_next (gchrHeader_total cc s)).congr fun f => by simp [hp]
  · next hp => exact hdata.congr fun f => by simp [hp]

/-- `PALW` stops where its open load is of a slot that does not exist (log 9); such a slot is busy with the sheet. -/
theorem execPalw_stops (r g b : Byte) (s : State) :
    StopsExactly (execPalw r g b s) fun f => s.err.kind = .noError ∧ f = .noSuchPaletteSlot s.pal.psel.toNat ∧
      s.pal.pselv = true ∧ s.remap.rph = .idle ∧ 129 < s.pal.psel.toNat := by
  refine (StopsExactly.unlessFaulted (.check (.check (.ite (.next _) (.fault _))))).congr fun f => ?_
  have hslot : ¬ s.pal.psel.toNat < Config.nSlot ↔ 129 < s.pal.psel.toNat := Nat.not_lt
  have hbusy : 129 < s.pal.psel.toNat → (¬ s.busy s.pal.psel.toNat = true ↔ s.remap.rph = .idle) := fun h => by
    rw [State.busy, if_neg (by omega)]
    cases s.remap.rph <;> decide
  rw [hslot, Bool.not_eq_false]
  tauto

/-- `IBEGIN` stops where, its checks passed, an entry of the image palette was never written (log 3). -/
theorem execIbegin_stops (a : Byte) (b : BitVec 16) (s : State) :
    StopsExactly (execIbegin a b s) fun f => s.err.kind = .noError ∧ f = .paletteUnwritten 0 ∧ s.image.iph = .idle ∧
      s.isPresent 0 = true ∧ a.toNat % 2 = 0 ∧ b.toNat ≤ 255 ∧ ∃ e, e < 16 ∧ palEntry s.pal.palmem 0 e = none := by
  refine (StopsExactly.unlessFaulted (.check (.check (.check (.check (Q := fun f =>
    f = .paletteUnwritten 0 ∧ palColours s.pal.palmem 0 = none) ?_))))).congr fun f => ?_
  · split
    · next colours hc => exact (StopsExactly.next _).congr fun f => by simp [hc]
    · next hc => exact (StopsExactly.fault _).congr fun f => by simp [hc]
  · have hidle : ¬ s.image.iph = .active ↔ s.image.iph = .idle := by cases s.image.iph <;> decide
    have heven : ¬ a.toNat % 2 = 1 ↔ a.toNat % 2 = 0 := Nat.mod_two_ne_one
    have hsize : ¬ Config.maxIH < b.toNat ↔ b.toNat ≤ 255 := Nat.not_lt
    rw [palColours_eq_none, hidle, heven, hsize, Bool.not_eq_false]
    tauto

/-- `RPIX` stops where, its checks passed, the entry it reads was never written (log 3). -/
theorem execRpix_stops (idx : Byte) (s : State) :
    StopsExactly (execRpix idx s) fun f => s.err.kind = .noError ∧
      f = .paletteUnwritten (s.activeSlot (rowInFrame s.remap)) ∧ s.remap.rph = .active ∧ idx.toNat ≤ 15 ∧
      palEntry s.pal.palmem (s.activeSlot (rowInFrame s.remap)) idx.toNat = none := by
  refine (StopsExactly.unlessFaulted (.check (.check (Q := fun f =>
    f = .paletteUnwritten (s.activeSlot (rowInFrame s.remap)) ∧
      palEntry s.pal.palmem (s.activeSlot (rowInFrame s.remap)) idx.toNat = none) ?_))).congr fun f => ?_
  · split
    · next c hc => exact (StopsExactly.next _).congr fun f => by simp [hc]
    · next hc => exact (StopsExactly.fault _).congr fun f => by simp [hc]
  · have hactive : ¬ s.remap.rph = .idle ↔ s.remap.rph = .active := by cases s.remap.rph <;> decide
    rw [hactive, Nat.not_lt]
    tauto

/-- Every stop of the model, command by command. -/
theorem exec_stops (i : Instr) (s : State) :
    StopsExactly (exec i s) fun f => s.err.kind = .noError ∧
    ((∃ a b, i = .ibegin a b ∧ f = .paletteUnwritten 0 ∧ s.image.iph = .idle ∧ s.isPresent 0 = true ∧
        a.toNat % 2 = 0 ∧ b.toNat ≤ 255 ∧ ∃ e, e < 16 ∧ palEntry s.pal.palmem 0 e = none) ∨
     (∃ idx, i = .rpix idx ∧ f = .paletteUnwritten (s.activeSlot (rowInFrame s.remap)) ∧
        s.remap.rph = .active ∧ idx.toNat ≤ 15 ∧
        palEntry s.pal.palmem (s.activeSlot (rowInFrame s.remap)) idx.toNat = none) ∨
     (∃ r g b, i = .palw r g b ∧ f = .noSuchPaletteSlot s.pal.psel.toNat ∧ s.pal.pselv = true ∧
        s.remap.rph = .idle ∧ 129 < s.pal.psel.toNat) ∨
     (∃ cc, i = .gchr cc ∧ f = .noSuchFontRow s.glyph.grow.toNat ∧ s.glyph.gph = .gData ∧
        s.glyph.gpos.toNat < s.glyph.gw.toNat ∧ 7 < s.glyph.grow.toNat)) := by
  cases i with
  | nop => exact (StopsExactly.of_next ⟨s, execNop_eq s⟩).congr (by simp)
  | reset => exact (StopsExactly.of_next ⟨_, execReset_eq s⟩).congr (by simp)
  | q565 r g b => exact (StopsExactly.of_next (unlessFaulted_total ⟨_, rfl⟩)).congr (by simp)
  | qmask r g b => exact (StopsExactly.of_next (unlessFaulted_total ⟨_, rfl⟩)).congr (by simp)
  | gbegin a b => exact (StopsExactly.of_next (execGbegin_total a b s)).congr (by simp)
  | gchr cc => exact (execGchr_stops cc s).congr (by simp)
  | geol => exact (StopsExactly.of_next (execGeol_total s)).congr (by simp)
  | gend => exact (StopsExactly.of_next (execGend_total s)).congr (by simp)
  | palsel p => exact (StopsExactly.of_next (execPalsel_total p s)).congr (by simp)
  | palw r g b => exact (execPalw_stops r g b s).congr (by simp)
  | palclr p => exact (StopsExactly.of_next (execPalclr_total p s)).congr (by simp)
  | ibegin a b => exact (execIbegin_stops a b s).congr (by simp)
  | ipix idx => exact (StopsExactly.of_next (execIpix_total idx s)).congr (by simp)
  | rbegin a b => exact (StopsExactly.of_next (execRbegin_total a b s)).congr (by simp)
  | rpix idx => exact (execRpix_stops idx s).congr (by simp)

/-! ### What a unit's commands depend on (R21) -/

/-- A command that answers `r` about `s` and `r'` about `s'` does the same to the parts `same` compares, and appends the
same items. -/
def Alike (same : State → State → Prop) (s s' : State) (r r' : Result) : Prop :=
  ∀ t, r = .next t → ∃ t' items, r' = .next t' ∧ same t t' ∧ t.out = s.out ++ items ∧ t'.out = s'.out ++ items

/-- The two states hold the same in every part a glyph command reads. -/
structure SameGlyph (s s' : State) : Prop where
  glyph : s'.glyph = s.glyph
  font : s'.font = s.font
  err : s'.err = s.err

/-- The two states hold the same image unit and error registers. -/
structure SameImage (s s' : State) : Prop where
  image : s'.image = s.image
  err : s'.err = s.err

/-- The two states hold the same remap unit and error registers. -/
structure SameRemap (s s' : State) : Prop where
  remap : s'.remap = s.remap
  err : s'.err = s.err

section
variable {same : State → State → Prop}

theorem Alike.emits {t t' : State} (items : List OutItem) (h : same t t') (ht : t.out = s.out ++ items)
    (ht' : t'.out = s'.out ++ items) : Alike same s s' (.next t) (.next t') := by
  intro u hu
  rw [next_inj hu]
  exact ⟨t', items, rfl, h, ht, ht'⟩

theorem Alike.next {t t' : State} (h : same t t') (ht : t.out = s.out) (ht' : t'.out = s'.out) :
    Alike same s s' (.next t) (.next t') :=
  .emits [] h (by rw [ht, List.append_nil]) (by rw [ht', List.append_nil])

theorem Alike.fault {f : Fault} {r' : Result} : Alike same s s' (.fault f) r' := by
  intro t h
  cases h

theorem Alike.ite {c : Prop} [Decidable c] {x y x' y' : Result} (hx : Alike same s s' x x')
    (hy : Alike same s s' y y') : Alike same s s' (if c then x else y) (if c then x' else y') := by
  split
  · exact hx
  · exact hy

theorem Alike.unlessFaulted {body body' : Result} (herr : s'.err = s.err) (hs : same s s')
    (h : Alike same s s' body body') : Alike same s s' (unlessFaulted s body) (unlessFaulted s' body') := by
  unfold Machine.unlessFaulted
  rw [State.faulted_congr herr]
  exact .ite (.next hs rfl rfl) h

end

section
variable (hs : SameGlyph s s')
include hs

theorem SameGlyph.raise {k : ErrKind} {info : Word} :
    Alike SameGlyph s s' (Machine.raise k info s) (Machine.raise k info s') :=
  .next ⟨hs.glyph, hs.font, rfl⟩ rfl rfl

theorem SameGlyph.raiseAtLine : Alike SameGlyph s s' (Machine.raiseAtLine s) (Machine.raiseAtLine s') := by
  unfold Machine.raiseAtLine
  rw [hs.glyph]
  exact hs.raise

/-- A write of the glyph registers alone. -/
theorem SameGlyph.write (g : GlyphUnit) :
    Alike SameGlyph s s' (.next { s with glyph := g }) (.next { s' with glyph := g }) :=
  .next ⟨rfl, hs.font, hs.err⟩ rfl rfl

theorem gchrHeader_alike (cc : CharCode) : Alike SameGlyph s s' (gchrHeader cc s) (gchrHeader cc s') := by
  unfold gchrHeader
  rw [hs.glyph]
  split
  · unfold gchrFirst
    rw [hs.glyph]
    exact .ite (hs.write _) (.ite hs.raiseAtLine (hs.write _))
  · unfold gchrAfterHash
    rw [hs.glyph]
    refine .ite (hs.write _) ?_
    split
    · exact hs.write _
    · exact hs.raiseAtLine
  · unfold gchrHexDigit
    rw [hs.glyph]
    split
    · exact hs.raiseAtLine
    · exact .ite hs.raiseAtLine (hs.write _)
  · exact .next hs rfl rfl

theorem gchrData_alike (cc : CharCode) : Alike SameGlyph s s' (gchrData cc s) (gchrData cc s') := by
  unfold gchrData
  rw [hs.glyph, hs.font]
  exact .ite (.ite (.next ⟨rfl, rfl, hs.err⟩ rfl rfl) .fault) (.next hs rfl rfl)

theorem geolHeader_alike : Alike SameGlyph s s' (geolHeader s) (geolHeader s') := by
  unfold geolHeader
  rw [hs.glyph]
  split
  · exact hs.raiseAtLine
  · exact hs.raiseAtLine
  · exact hs.write _
  · exact hs.write _

theorem geolData_alike : Alike SameGlyph s s' (geolData s) (geolData s') := by
  unfold geolData
  rw [hs.glyph]
  exact .ite hs.raiseAtLine (.ite (hs.write _) (hs.write _))

theorem execGbegin_alike (a : Byte) (b : BitVec 16) :
    Alike SameGlyph s s' (execGbegin a b s) (execGbegin a b s') := by
  unfold execGbegin
  rw [hs.glyph]
  exact .unlessFaulted hs.err hs (.ite hs.raise (.ite hs.raise (.ite hs.raise
    (.next ⟨rfl, rfl, hs.err⟩ rfl rfl))))

theorem execGchr_alike (cc : CharCode) : Alike SameGlyph s s' (execGchr cc s) (execGchr cc s') := by
  unfold execGchr
  rw [hs.glyph]
  refine .unlessFaulted hs.err hs ?_
  split
  · exact hs.raise
  · exact gchrHeader_alike hs cc
  · exact gchrData_alike hs cc

theorem execGeol_alike : Alike SameGlyph s s' (execGeol s) (execGeol s') := by
  unfold execGeol
  rw [hs.glyph]
  refine .unlessFaulted hs.err hs ?_
  split
  · exact hs.raise
  · exact geolHeader_alike hs
  · exact geolData_alike hs

theorem execGend_alike : Alike SameGlyph s s' (execGend s) (execGend s') := by
  unfold execGend
  rw [hs.glyph, hs.font]
  refine .unlessFaulted hs.err hs ?_
  split
  · exact hs.raise
  · exact hs.raiseAtLine
  · exact .ite hs.raiseAtLine (.emits _ ⟨rfl, rfl, hs.err⟩ rfl rfl)

theorem glyphCommand_alike {i : Instr} (hi : isGlyphCommand i = true) :
    Alike SameGlyph s s' (exec i s) (exec i s') := by
  obtain ⟨a, b, rfl⟩ | ⟨cc, rfl⟩ | rfl | rfl := isGlyphCommand_iff.1 hi
  · exact execGbegin_alike hs a b
  · exact execGchr_alike hs cc
  · exact execGeol_alike hs
  · exact execGend_alike hs

end

/-- A slot's colours are decided by its sixteen entries. -/
theorem palColours_congr {m m' : Memory 24} {slot : Nat} (h : ∀ e, e < 16 → palEntry m' slot e = palEntry m slot e) :
    palColours m' slot = palColours m slot :=
  congrArg allSome (List.map_congr_left fun e he => h e (List.mem_range.1 he))

theorem SameImage.raise (hs : SameImage s s') {k : ErrKind} {info : Word} :
    Alike SameImage s s' (Machine.raise k info s) (Machine.raise k info s') :=
  .next ⟨hs.image, rfl⟩ rfl rfl

theorem execIbegin_alike (hs : SameImage s s') (hpres : s'.isPresent 0 = s.isPresent 0)
    (hread : palColours s'.pal.palmem 0 = palColours s.pal.palmem 0) (a : Byte) (b : BitVec 16) :
    Alike SameImage s s' (execIbegin a b s) (execIbegin a b s') := by
  unfold execIbegin
  rw [hs.image, hpres, hread]
  refine .unlessFaulted hs.err hs (.ite hs.raise (.ite hs.raise (.ite hs.raise (.ite hs.raise ?_))))
  split
  · exact .emits _ ⟨rfl, hs.err⟩ rfl rfl
  · exact .fault

theorem execIpix_alike (hs : SameImage s s') (idx : Byte) :
    Alike SameImage s s' (execIpix idx s) (execIpix idx s') := by
  unfold execIpix
  rw [hs.image]
  exact .unlessFaulted hs.err hs (.ite hs.raise (.ite hs.raise
    (.ite (.next ⟨rfl, hs.err⟩ rfl rfl) (.emits _ ⟨rfl, hs.err⟩ rfl rfl))))

theorem SameRemap.raise (hs : SameRemap s s') {k : ErrKind} {info : Word} :
    Alike SameRemap s s' (Machine.raise k info s) (Machine.raise k info s') :=
  .next ⟨hs.remap, rfl⟩ rfl rfl

theorem execRbegin_alike (hs : SameRemap s s') (hpres : s'.isPresent 1 = s.isPresent 1) (a : Byte) (b : BitVec 16) :
    Alike SameRemap s s' (execRbegin a b s) (execRbegin a b s') := by
  unfold execRbegin
  rw [hs.remap, hpres]
  exact .unlessFaulted hs.err hs (.ite hs.raise (.ite hs.raise (.ite hs.raise
    (.next ⟨rfl, hs.err⟩ rfl rfl))))

/-- The palette of a row of a frame is that of slot 1 or of its override's slot, both of which exist (R172). -/
theorem activeSlot_bounds {py : Nat} (hpy : py < 128) : 1 ≤ s.activeSlot py ∧ s.activeSlot py ≤ 129 := by
  unfold State.activeSlot
  split <;> omega

theorem rowInFrame_lt (u : RemapUnit) : rowInFrame u < 128 := Nat.mod_lt _ (by decide)

theorem execRpix_alike (hs : SameRemap s s')
    (hslot : s'.activeSlot (rowInFrame s.remap) = s.activeSlot (rowInFrame s.remap))
    (hread : ∀ e, e < 16 → palEntry s'.pal.palmem (s.activeSlot (rowInFrame s.remap)) e =
      palEntry s.pal.palmem (s.activeSlot (rowInFrame s.remap)) e) (idx : Byte) :
    Alike SameRemap s s' (execRpix idx s) (execRpix idx s') := by
  unfold execRpix
  rw [hs.remap, hslot]
  refine .unlessFaulted hs.err hs (.ite hs.raise ?_)
  by_cases hidx : 15 < idx.toNat
  · rw [if_pos hidx, if_pos hidx]
    exact hs.raise
  · rw [if_neg hidx, if_neg hidx, hread _ (Nat.lt_succ_of_le (Nat.le_of_not_lt hidx))]
    split
    · exact .emits _ ⟨rfl, hs.err⟩ rfl rfl
    · exact .fault

/-! ### The status register (R27) -/

theorem statusPort_zero (s : State) : s.statusPort 0 = s.status := rfl

theorem status_errKind (s : State) : s.status.extractLsb' 0 3 = s.err.kind.code :=
  (BitVec.extractLsb'_append_eq_of_add_le (by decide)).trans BitVec.extractLsb'_eq_self

theorem status_glyphPhase (s : State) : s.status.extractLsb' 4 2 = s.glyph.gph.code := by
  iterate 2 refine (BitVec.extractLsb'_append_eq_of_le (by decide)).trans ?_
  exact (BitVec.extractLsb'_append_eq_of_add_le (by decide)).trans BitVec.extractLsb'_eq_self

theorem status_reserved (s : State) : s.status.extractLsb' 11 21 = 0 := by
  iterate 8 refine (BitVec.extractLsb'_append_eq_of_le (by decide)).trans ?_
  exact BitVec.extractLsb'_eq_self

/-- The one-bit fields of `STATUS`, each a bit of the field that stands at its place. -/
theorem status_bits (s : State) :
    s.status.getLsbD 3 = false ∧ s.status.getLsbD 6 = s.image.iph.code.getLsbD 0 ∧
    s.status.getLsbD 7 = s.remap.rph.code.getLsbD 0 ∧ s.status.getLsbD 8 = s.pal.pselv ∧
    s.status.getLsbD 9 = s.isPresent 0 ∧ s.status.getLsbD 10 = s.isPresent 1 := by
  unfold State.status
  simp only [BitVec.getLsbD_append, BitVec.getLsbD_ofBool, Nat.reduceLT, Nat.reduceSub, if_true, if_false,
    decide_true, Bool.true_and, and_true]
  rfl

theorem UnitPhase.code_bit (p : UnitPhase) : p.code.getLsbD 0 = true ↔ p = .active := by
  cases p <;> decide

/-! ### Reset and the words of the control commands -/

/-- A word of an opcode whose row has no operand is legal only with a zero operand field (R81, R84). -/
theorem decode_append_ne_ok {op : Byte} {f : OperandField} {make i : Instr} (hrow : opcodeRow op = some (.z make))
    (hf : f ≠ 0) : decode (op ++ f) ≠ .ok i := by
  rw [decode, opcodeField_append, operandField_append, hrow]
  simp only [readOperands, if_neg hf]
  nofun

theorem step_resetPin {rest : List HostEvent} (h : s.input = .resetPin :: rest) :
    step s = .next { s.toReset with input := rest } := by
  rw [step, serve, h]
  rfl

/-- The `RESET` word is executed faulted or not (R181, R192). -/
theorem step_resetWord {rest : List HostEvent} (h : s.input = .command resetWord :: rest) :
    step s = .next { s.toReset with input := rest } := by
  have htake : takeWord resetWord { s with input := rest } = .run .reset { s with input := rest } := by
    rw [takeWord, if_neg (fun hw => hw.2 rfl)]
    rfl
  rw [step, serve, h]
  simp only [takeEvent, htake]
  rfl

/-- In the faulted state only reset writes the error registers (R195). -/
theorem step_faulted_err (hfault : s.err.kind ≠ .noError) (h : step s = .next t) (herr : t.err ≠ s.err) :
    t = { s.toReset with input := t.input } := by
  obtain hdone | ⟨i, u, hrun, hexec⟩ := step_cases h
  · obtain rfl | ⟨rest, rfl | rfl | rfl | ⟨w, hlive, -⟩⟩ := serve_done hdone
    · exact absurd rfl herr
    · exact absurd rfl herr
    · rfl
    · exact absurd rfl herr
    · exact absurd hlive hfault
  · obtain ⟨w, rest, -, rfl, hdecode, hword⟩ := serve_run hrun
    rw [hword.resolve_left hfault] at hdecode
    obtain rfl : i = .reset := (Except.ok.inj hdecode).symm
    rw [next_inj hexec]
    rfl

end Sys2Proof.Machine

open Sys2Proof Sys2Proof.Machine

/-- Settles O44: of the glyph commands only a data-line `GCHR` writes into the font it found, and only its own mask. -/
theorem glyphFrame : Obligations.GlyphFrame := by
  intro i s t hi h
  have hframe := glyphCommand_frame hi h
  have hpal : t.pal = s.pal := by rw [hframe]
  refine ⟨hframe, fun slot e => by rw [hpal], ?_, ?_, ?_, ?_⟩
  · rintro (rfl | rfl) k c
    · rw [(execGeol_font_out h).1]
    · rw [execGend_font h]
  · rintro cc rfl hout k c
    obtain hfont | ⟨hdata, hpos, -⟩ := execGchr_font h
    · rw [hfont]
    · exact absurd hpos (hout.resolve_left (not_not_intro hdata)).not_gt
  · rintro cc rfl hwf k c - hc hne
    obtain hfont | ⟨-, -, hfont⟩ := execGchr_font h
    · rw [hfont]
    · rw [hfont, fontMask_writeBit hwf _ s.glyph.gpos.isLt (Nat.lt_succ_of_lt hc), if_neg (not_and_or.2 hne)]
  · intro hgend
    obtain ⟨a, b, rfl⟩ | ⟨cc, rfl⟩ | rfl | rfl := isGlyphCommand_iff.1 hi
    · exact execGbegin_out h
    · exact execGchr_out h
    · exact (execGeol_font_out h).2
    · exact absurd rfl hgend

/-- Settles O45: the store's one written entry is the one at (`PSEL`, `PIDX`). -/
theorem paletteFrame : Obligations.PaletteFrame := by
  intro i s t hi h
  have hframe := paletteCommand_frame hi h
  refine ⟨hframe, fun k c => by rw [hframe], fun slot e _ he hne => ?_⟩
  obtain hmem | ⟨r, g, b, rfl, hmem⟩ := paletteCommand_palmem hi h
  · rw [hmem]
  · have hother : ¬ (slot = s.pal.psel.toNat ∧ e = s.pal.pidx.toNat) :=
      not_and_or.2 (hne.resolve_left fun hno => hno r g b rfl)
    rw [hmem, palEntry_write _ _ s.pal.pidx.isLt he, if_neg hother]

/-- Settles O46, from the frame of the image commands. -/
theorem imageFrame : Obligations.ImageFrame := by
  intro i s t hi h
  have hframe := imageCommand_frame hi h
  exact ⟨hframe, fun k c => by rw [hframe], fun slot e => by rw [hframe]⟩

/-- Settles O47, from the frame of the remap commands. -/
theorem remapFrame : Obligations.RemapFrame := by
  intro i s t hi h
  have hframe := remapCommand_frame hi h
  exact ⟨hframe, fun k c => by rw [hframe], fun slot e => by rw [hframe]⟩

/-- Settles O48: in two states that agree on what a unit reads, its commands take the same branches. -/
theorem unitsAreIndependent : Obligations.UnitsAreIndependent := by
  refine ⟨?_, ?_, ?_⟩
  · intro i s s' t hi herr hglyph hfont h
    obtain ⟨t', items, h', ⟨hg, hf, he⟩, hout⟩ := glyphCommand_alike ⟨hglyph, hfont, herr⟩ hi t h
    exact ⟨t', items, h', hg, hf, he, hout⟩
  · intro i s s' t hi herr himage hpres hread h
    have hs : SameImage s s' := ⟨himage, herr⟩
    have halike : Alike SameImage s s' (exec i s) (exec i s') := by
      obtain ⟨a, b, rfl⟩ | ⟨idx, rfl⟩ := isImageCommand_iff.1 hi
      · exact execIbegin_alike hs hpres (palColours_congr hread) a b
      · exact execIpix_alike hs idx
    obtain ⟨t', items, h', ⟨hi', he⟩, hout⟩ := halike t h
    exact ⟨t', items, h', hi', he, hout⟩
  · intro i s s' t hi herr hremap hslots h
    have hs : SameRemap s s' := ⟨hremap, herr⟩
    have halike : Alike SameRemap s s' (exec i s) (exec i s') := by
      obtain ⟨a, b, rfl⟩ | ⟨idx, rfl⟩ := isRemapCommand_iff.1 hi
      · exact execRbegin_alike hs (hslots 1 (by decide) (by decide)).1 a b
      · have hrow := rowInFrame_lt s.remap
        have hactive : s'.activeSlot (rowInFrame s.remap) = s.activeSlot (rowInFrame s.remap) := by
          rw [State.activeSlot, State.activeSlot, (hslots (2 + rowInFrame s.remap) (by omega) (by omega)).1]
        obtain ⟨hlo, hhi⟩ := activeSlot_bounds (s := s) hrow
        exact execRpix_alike hs hactive (hslots _ hlo hhi).2 idx
    obtain ⟨t', items, h', ⟨hr, he⟩, hout⟩ := halike t h
    exact ⟨t', items, h', hr, he, hout⟩

/-- Settles O52: (a) to (e) and the code of `ERRKIND` from the invariant of reachable states, (f) from the step. -/
theorem reachableStatesMeetBounds : Obligations.ReachableStatesMeetBounds := by
  refine ⟨fun s hs => ?_, fun s t _ => step_faulted_err⟩
  obtain ⟨⟨⟨hsize, hdata, hhdr⟩, himage, hremap, hload⟩, -⟩ := hs.inv
  have hphase : s.glyph.gph.code.toNat ≤ 2 := by cases s.glyph.gph <;> decide
  have hkind : s.err.kind.code.toNat ≤ 5 := by cases s.err.kind <;> decide
  refine ⟨⟨hphase, fun hopen => ?_⟩, hdata, hhdr, fun hactive => ?_, hremap, hload, hkind⟩
  · obtain ⟨hw, hh⟩ := hsize hopen
    exact ⟨hw, Nat.le_of_lt_succ s.glyph.gw.isLt, hh⟩
  · obtain ⟨heven, hw2, hw254, hh, hrest⟩ := himage hactive
    exact ⟨heven, hw2, hw254, hh, Nat.le_of_lt_succ s.image.ih.isLt, hrest⟩

/-- Settles O53, from the stops of each command. -/
theorem stopsOnlyOutsideTheStore : Obligations.StopsOnlyOutsideTheStore :=
  ⟨fun i s => (exec_stops i s).1, fun i s => (exec_stops i s).2⟩

/-- Settles O34: the pin and the `RESET` word both come to `State.toReset`. -/
theorem resetTakesResetValues : Obligations.ResetTakesResetValues := by
  refine ⟨rfl, fun f hf i => decode_append_ne_ok rfl hf, fun s => ⟨s.toReset, execReset_eq s, fun rest => step_resetPin,
    fun rest => step_resetWord, ?_⟩⟩
  simp [GlyphUnit.reset, ImageUnit.reset, RemapUnit.reset, PaletteUnit.reset, ErrorRegs.reset, State.faultLine,
    State.faulted, State.quiescent, fontMask_nil, State.isPresent]

/-- Settles O35, field by field of the concatenation R27 describes. -/
theorem statusFields : Obligations.StatusFields := by
  refine ⟨rfl, fun s => ?_⟩
  obtain ⟨hunused, himage, hremap, hload, hpresent0, hpresent1⟩ := status_bits s
  rw [statusPort_zero, status_errKind, status_glyphPhase, himage, hremap]
  refine ⟨?_, hunused, ?_, s.image.iph.code_bit, s.remap.rph.code_bit, hload, hpresent0, hpresent1, status_reserved s⟩
  · cases s.err.kind <;> rfl
  · cases s.glyph.gph <;> rfl

/-- Settles O36. -/
theorem errorRegisterViews : Obligations.ErrorRegisterViews := by
  refine ⟨rfl, fun s => ⟨rfl, State.faulted_eq_true s, ?_⟩⟩
  simp [State.quiescent, and_assoc]

end

section
/-! SUPPORT. The command word the step takes, what a command appends to the output sequence, and storage decided by its
reads. -/

namespace Sys2Proof

/-- The command a format builds from an operand field, its must-be-zero bits aside (R81). -/
def Format.command (f : OperandField) : Format → Instr
  | .z make => make
  | .c make => make f
  | .d make => make (f.extractLsb' 16 8) (f.extractLsb' 0 16)
  | .p make => make (f.extractLsb' 0 8)
  | .t make => make (f.extractLsb' 16 8) (f.extractLsb' 8 8) (f.extractLsb' 0 8)
  | .s make => make (f.extractLsb' 0 8)

theorem readLowByte_ok {op : Byte} {make : Byte → Instr} {f : OperandField} {i : Instr}
    (h : readLowByte op make f = .ok i) : i = make (f.extractLsb' 0 8) := by
  unfold readLowByte at h
  split at h
  · exact (Except.ok.inj h).symm
  · cases h

theorem readOperands_z_ok {op : Byte} {make i : Instr} {f : OperandField} (h : readOperands op (.z make) f = .ok i) :
    i = make ∧ f = 0 := by
  simp only [readOperands] at h
  split at h
  · next hf => exact ⟨(Except.ok.inj h).symm, hf⟩
  · cases h

/-- What is read is the command its format builds. -/
theorem readOperands_ok {op : Byte} {fmt : Format} {f : OperandField} {i : Instr}
    (h : readOperands op fmt f = .ok i) : i = fmt.command f := by
  cases fmt with
  | z make => exact (readOperands_z_ok h).1
  | c make => exact (Except.ok.inj h).symm
  | d make => exact (Except.ok.inj h).symm
  | p make => exact readLowByte_ok h
  | t make => exact (Except.ok.inj h).symm
  | s make => exact readLowByte_ok h

/-- A row of the opcode map is the row of every command its format builds (R83). -/
theorem opcodeMap_command {op : Byte} {fmt : Format} (hrow : (op, fmt) ∈ opcodeMap) (f : OperandField) :
    op = opcode (fmt.command f) ∧ fmt = formatOf (fmt.command f) := by
  fin_cases hrow <;> exact ⟨rfl, rfl⟩

/-- A legal word bears the opcode of its command, and its operand field is read by that command's row (R83, R84). -/
theorem decode_row {w : Word} {i : Instr} (h : decode w = .ok i) :
    opcodeField w = opcode i ∧ readOperands (opcode i) (formatOf i) (operandField w) = .ok i := by
  unfold decode at h
  split at h
  · cases h
  · next fmt hfmt =>
    obtain ⟨hop, hformat⟩ := opcodeMap_command (mem_of_findRow hfmt) (operandField w)
    rw [← readOperands_ok h] at hop hformat
    exact ⟨hop, by rwa [hop, hformat] at h⟩

/-- The only word of `RESET` is 0x01000000 (R181). -/
theorem eq_resetWord_of_decode {w : Word} (h : decode w = .ok .reset) : w = resetWord := by
  obtain ⟨hop, hread⟩ := decode_row h
  rw [← fields_append w, hop, (readOperands_z_ok hread).2]
  rfl

end Sys2Proof

namespace Sys2Proof.Machine

variable {s t : State}

/-! ### A command word at the head of the port -/

/-- Asked about a faulted state, a meaning other than `RESET`'s discards too (log 10). -/
theorem exec_faulted {i : Instr} (hfault : s.err.kind ≠ .noError) (hi : i ≠ .reset) : exec i s = .next s := by
  cases i with
  | reset => exact absurd rfl hi
  | _ => exact unlessFaulted_faulted hfault _

theorem serve_command {w : Word} {rest : List HostEvent} (h : s.input = .command w :: rest) :
    serve s = takeWord w { s with input := rest } := by
  rw [serve, h]
  rfl

theorem serve_command_discarded {w : Word} {rest : List HostEvent} (h : s.input = .command w :: rest)
    (hfault : s.err.kind ≠ .noError) (hw : w ≠ resetWord) : serve s = .done { s with input := rest } :=
  (serve_command h).trans (if_pos ⟨(State.faulted_eq_true s).2 hfault, hw⟩)

theorem serve_command_run {w : Word} {rest : List HostEvent} {i : Instr} (h : s.input = .command w :: rest)
    (hw : s.err.kind = .noError ∨ w = resetWord) (hdecode : decode w = .ok i) :
    serve s = .run i { s with input := rest } := by
  have htaken : ¬ (s.faulted = true ∧ w ≠ resetWord) := fun ⟨hfault, hne⟩ =>
    (State.faulted_eq_true s).1 hfault (hw.resolve_right hne)
  refine (serve_command h).trans ((if_neg htaken).trans ?_)
  rw [hdecode]

/-! ### The output sequence -/

theorem out_prefix_of_eq (h : t.out = s.out) : s.out <+: t.out :=
  h ▸ List.prefix_rfl

theorem NoEffect.out_prefix (h : NoEffect s t) : s.out <+: t.out :=
  out_prefix_of_eq h.out_eq

theorem prefix_emit (s : State) (items : List OutItem) : s.out <+: (s.emit items).out :=
  List.prefix_append _ _

/-- A command appends to the output sequence, or leaves it as it is. -/
theorem exec_out_prefix {i : Instr} (h : exec i s = .next t) : s.out <+: t.out := by
  cases i with
  | nop => exact out_prefix_of_eq (by rw [next_inj ((execNop_eq s).symm.trans h)])
  | reset => exact out_prefix_of_eq (by rw [next_inj h, State.toReset_out])
  | q565 r g b =>
    obtain hno | ⟨-, rfl⟩ := execQ565_next h
    · exact hno.out_prefix
    · exact prefix_emit s _
  | qmask r g b =>
    obtain hno | ⟨-, rfl⟩ := execQmask_next h
    · exact hno.out_prefix
    · exact prefix_emit s _
  | gbegin a b => exact out_prefix_of_eq (execGbegin_out h)
  | gchr cc => exact out_prefix_of_eq (execGchr_out h)
  | geol => exact out_prefix_of_eq (execGeol_font_out h).2
  | gend =>
    obtain hno | ⟨-, -, -, rfl⟩ := execGend_next h
    · exact hno.out_prefix
    · exact prefix_emit _ _
  | palsel p => exact out_prefix_of_eq (by rw [paletteCommand_frame rfl h])
  | palw r g b => exact out_prefix_of_eq (by rw [paletteCommand_frame rfl h])
  | palclr p => exact out_prefix_of_eq (by rw [paletteCommand_frame rfl h])
  | ibegin a b =>
    obtain hno | ⟨-, -, -, -, -, colours, -, rfl⟩ := execIbegin_next h
    · exact hno.out_prefix
    · exact prefix_emit _ _
  | ipix idx =>
    obtain hno | ⟨-, -, -, -, rfl⟩ | ⟨-, -, -, -, rfl⟩ := execIpix_next h
    · exact hno.out_prefix
    · exact out_prefix_of_eq rfl
    · exact prefix_emit _ _
  | rbegin a b =>
    obtain hno | ⟨-, -, -, -, -, -, rfl⟩ := execRbegin_next h
    · exact hno.out_prefix
    · exact out_prefix_of_eq rfl
  | rpix idx =>
    obtain hno | ⟨-, -, -, c, -, rfl⟩ := execRpix_next h
    · exact hno.out_prefix
    · exact prefix_emit _ _

/-- Serving an event without a command emits nothing. -/
theorem serve_done_out (h : serve s = .done t) : t.out = s.out := by
  obtain rfl | ⟨rest, rfl | rfl | rfl | ⟨w, -, rfl⟩⟩ := serve_done h <;> rfl

theorem step_out_prefix (h : step s = .next t) : s.out <+: t.out := by
  obtain hdone | ⟨i, u, hrun, hexec⟩ := step_cases h
  · exact out_prefix_of_eq (serve_done_out hdone)
  · obtain ⟨w, rest, -, rfl, -⟩ := serve_run hrun
    exact exec_out_prefix (s := { s with input := rest }) hexec

/-! ### Storage in canonical form -/

/-- A cell is listed exactly when its key reads as its value and an unlisted key does not. -/
theorem Memory.mem_iff_read {w : Nat} {d : Option (BitVec w)} {m : Memory w} (hm : Memory.wf d m)
    {c : Nat × BitVec w} : c ∈ m ↔ Memory.read d m c.1 = some c.2 ∧ some c.2 ≠ d := by
  obtain ⟨hsorted, hlisted⟩ := hm
  constructor
  · intro hc
    exact ⟨by rw [Memory.read, memLookup_of_mem hsorted hc], hlisted c hc⟩
  · rintro ⟨hread, hne⟩
    unfold Memory.read at hread
    split at hread
    · next v hv => exact mem_of_memLookup (hv.trans hread)
    · exact absurd hread.symm hne

/-- Canonical storage is decided by its reads: the keys rise, so the listed cells stand in one order only. -/
theorem Memory.eq_of_read_eq {w : Nat} {d : Option (BitVec w)} {m m' : Memory w} (hm : Memory.wf d m)
    (hm' : Memory.wf d m') (hread : ∀ a, Memory.read d m a = Memory.read d m' a) : m = m' := by
  have : Std.Irrefl fun x y : Nat × BitVec w => x.1 < y.1 := ⟨fun x => Nat.lt_irrefl x.1⟩
  have : Std.Antisymm fun x y : Nat × BitVec w => x.1 < y.1 := ⟨fun x y h h' => absurd h' h.not_gt⟩
  exact hm.1.eq_of_mem_iff hm'.1 fun c => by rw [Memory.mem_iff_read hm, Memory.mem_iff_read hm', hread]

/-! ### The nibbles of a pixel pair (R68, R163) -/

/-- The byte of a pair is its two indices side by side (R68). -/
theorem packPair_toNat (px1 px2 : BitVec 4) : (packPair px1 px2).toNat = px1.toNat * 2 ^ 4 + px2.toNat := by
  have hlow := px2.isLt
  have hshift : (px1.setWidth 8 <<< 4).toNat = px1.toNat <<< 4 := by
    have hhigh := px1.isLt
    rw [BitVec.toNat_shiftLeft, BitVec.toNat_setWidth, Nat.shiftLeft_eq, Nat.shiftLeft_eq]
    omega
  rw [packPair, BitVec.toNat_or, hshift, BitVec.toNat_setWidth_of_le (by decide),
    ← Nat.shiftLeft_add_eq_or_of_lt hlow, Nat.shiftLeft_eq]

theorem packPair_high (px1 px2 : BitVec 4) : packPair px1 px2 >>> 4 = px1.setWidth 8 := by
  have hlow := px2.isLt
  apply BitVec.eq_of_toNat_eq
  rw [BitVec.toNat_ushiftRight, packPair_toNat, Nat.shiftRight_eq_div_pow, BitVec.toNat_setWidth_of_le (by decide)]
  omega

theorem packPair_low (px1 px2 : BitVec 4) : packPair px1 px2 &&& 0xF = px2.setWidth 8 := by
  have hlow := px2.isLt
  apply BitVec.eq_of_toNat_eq
  rw [BitVec.toNat_and, packPair_toNat, show (0xF : Byte).toNat = 2 ^ 4 - 1 from rfl, Nat.and_two_pow_sub_one_eq_mod,
    BitVec.toNat_setWidth_of_le (by decide)]
  omega

/-- A palette index is its low four bits (R163 check 2). -/
theorem setWidth_of_pixelIndex {idx : Byte} (h : idx.toNat ≤ 15) : (idx.setWidth 4).setWidth 8 = idx :=
  BitVec.eq_of_toNat_eq (by simp only [BitVec.toNat_setWidth]; omega)

/-- A pixel at an even `IX` is kept for its pair (R163). -/
theorem execIpix_even {idx : Byte} (hlive : s.err.kind = .noError) (hactive : s.image.iph = .active)
    (hidx : idx.toNat ≤ 15) (heven : s.image.ix.toNat % 2 = 0) :
    exec (.ipix idx) s = .next { s with image := imageAdvance { s.image with pxl1 := idx.setWidth 4 } } := by
  refine (unlessFaulted_live hlive _).trans ?_
  rw [if_neg (by simp [hactive]), if_neg hidx.not_gt, if_pos heven]

/-- A pixel at an odd `IX` completes the pair's byte (R163). -/
theorem execIpix_odd {idx : Byte} (hlive : s.err.kind = .noError) (hactive : s.image.iph = .active)
    (hidx : idx.toNat ≤ 15) (hodd : s.image.ix.toNat % 2 = 1) :
    exec (.ipix idx) s = .next ({ s with image := imageAdvance s.image }.emit
      [byteItem .pix (packPair s.image.pxl1 (idx.setWidth 4))]) := by
  refine (unlessFaulted_live hlive _).trans ?_
  rw [if_neg (by simp [hactive]), if_neg hidx.not_gt, if_neg (by omega)]

/-- The width of an active image is even, so the pixel at an even `IX` is not the last of its row (R162, R163). -/
theorem execIpix_opens_pair {idx : Byte} (hlive : s.err.kind = .noError) (hactive : s.image.iph = .active)
    (himage : s.ImageInv) (hidx : idx.toNat ≤ 15) (heven : s.image.ix.toNat % 2 = 0) :
    exec (.ipix idx) s = .next { s with image := { s.image with ix := s.image.ix + 1, pxl1 := idx.setWidth 4 } } := by
  obtain ⟨hwidth, -⟩ := himage hactive
  rw [execIpix_even hlive hactive hidx heven, imageAdvance, if_neg (by simp only; omega)]

/-! ### The output port (R66) -/

/-- A port word is its channel's byte shifted up, with the datum below. -/
theorem OutItem.word_eq_or (it : OutItem) :
    it.word = (((0 : BitVec 6) ++ it.ch.code).setWidth 32 <<< 24) ||| it.d.setWidth 32 :=
  Sys2Proof.word_eq_or ((0 : BitVec 6) ++ it.ch.code) it.d

end Sys2Proof.Machine

open Sys2Proof Sys2Proof.Machine

/-- Settles O29: `IW` is even, so a pair lies in one row; the second pixel emits the byte of both. -/
theorem pixelPairPacksAndUnpacks : Obligations.PixelPairPacksAndUnpacks := by
  intro s t u px1 px2 hlive himage hactive heven hpx1 hpx2 h1 h2
  obtain ⟨-, -, -, -, hix, -⟩ := himage hactive
  have ht := next_inj ((execIpix_opens_pair hlive hactive himage hpx1 heven).symm.trans h1)
  have hodd : t.image.ix.toNat % 2 = 1 := by
    rw [ht, toNat_succ_of_lt hix]
    omega
  obtain rfl := next_inj ((execIpix_odd (by rwa [ht]) (by rwa [ht]) hpx2 hodd).symm.trans h2)
  subst ht
  refine ⟨packPair (px1.setWidth 4) (px2.setWidth 4), rfl, ?_, ?_⟩
  · rw [packPair_high, setWidth_of_pixelIndex hpx1]
  · rw [packPair_low, setWidth_of_pixelIndex hpx2]

/-- Settles O41, from what each command appends. -/
theorem outputIsAppendOnly : Obligations.OutputIsAppendOnly := by
  intro s t h
  obtain ⟨items, hout⟩ := step_out_prefix h
  exact ⟨items, hout.symm⟩

/-- Settles O54: the listed cells are decided by the reads, and their order by their keys. -/
theorem canonicalStorageIsUnique : Obligations.CanonicalStorageIsUnique :=
  fun _ _ _ _ => Memory.eq_of_read_eq

/-- Settles O7: a live block and the `RESET` word come to `exec`; otherwise both sides discard. -/
theorem stepRunsDecodedCommand : Obligations.StepRunsDecodedCommand := by
  intro s w rest i hinput hdecode
  by_cases hw : s.err.kind = .noError ∨ w = resetWord
  · rw [step, serve_command_run hinput hw hdecode]
  · obtain ⟨hfault, hword⟩ := not_or.1 hw
    have hi : i ≠ .reset := fun hreset => hword (eq_resetWord_of_decode (hreset ▸ hdecode))
    rw [step, serve_command_discarded hinput hfault hword]
    exact (exec_faulted (s := { s with input := rest }) hfault hi).symm

/-- Settles O42: the channel codes shifted up, and the oldest item not yet taken. -/
theorem outputPortWord : Obligations.OutputPortWord := by
  refine ⟨fun d => ?_, fun s it rest hdrop => ?_⟩
  · simp only [OutItem.word_eq_or]
    exact ⟨BitVec.zero_or, rfl, rfl, rfl⟩
  · have hhead : s.out[s.popped]? = some it := by rw [← List.head?_drop, hdrop, List.head?_cons]
    rw [State.outputPort, hhead, Option.map_some]
end

section
/-! SUPPORT. A legal word is the row its opcode selects and the operands its format cuts: what the fields of a format give
back, which bits a row fixes, and the row of every command. What a block answers to an illegal word and to an operand out
of range, and the fields of a packed value. -/

namespace Sys2Proof

/-! ### Cutting and joining fields (R81) -/

/-- The bits from `k` up, kept in place, are those bits above `k` zeros. -/
theorem and_allOnes_append_zero {n k : Nat} (x : BitVec (n + k)) :
    x &&& (BitVec.allOnes n ++ 0#k) = x.extractLsb' k n ++ 0#k := by
  conv_lhs => rw [← BitVec.extractLsb'_append_extractLsb' (x := x)]
  rw [BitVec.and_append, BitVec.and_allOnes, BitVec.and_zero]

theorem append_eq_zero_iff {n k : Nat} {x : BitVec n} : x ++ 0#k = 0#(n + k) ↔ x = 0 := by
  constructor
  · intro h
    rw [← BitVec.extractLsb'_append_eq_left (a := x) (b := 0#k), h, BitVec.extractLsb'_zero]
    rfl
  · rintro rfl
    exact BitVec.zero_append_zero

/-- The bits above the low byte are the must-be-zero bits of formats P and S. -/
theorem and_highBits_eq_zero_iff (f : OperandField) : f &&& 0xFFFF00 = 0 ↔ f.extractLsb' 8 16 = 0 := by
  rw [show (0xFFFF00 : OperandField) = BitVec.allOnes 16 ++ 0#8 from rfl, and_allOnes_append_zero (n := 16) (k := 8) f]
  exact append_eq_zero_iff

theorem fieldD_cut (f : OperandField) : fieldD (f.extractLsb' 16 8) (f.extractLsb' 0 16) = f :=
  BitVec.extractLsb'_append_extractLsb' (w := 8) (len := 16) (x := f)

theorem fieldT_cut (f : OperandField) :
    fieldT (f.extractLsb' 16 8) (f.extractLsb' 8 8) (f.extractLsb' 0 8) = f := by
  rw [fieldT, BitVec.extractLsb'_append_extractLsb'_eq_extractLsb' (start₁ := 8) (len₁ := 8) rfl]
  exact BitVec.extractLsb'_append_extractLsb' (w := 16) (len := 8) (x := f)

theorem fieldLowByte_cut {f : OperandField} (h : f.extractLsb' 8 16 = 0) : fieldLowByte (f.extractLsb' 0 8) = f := by
  have hjoin := BitVec.extractLsb'_append_extractLsb' (w := 16) (len := 8) (x := f)
  rw [h] at hjoin
  rw [fieldLowByte, BitVec.setWidth_eq_append (by decide)]
  exact hjoin

theorem cut_fieldD (a : Byte) (b : BitVec 16) :
    (fieldD a b).extractLsb' 16 8 = a ∧ (fieldD a b).extractLsb' 0 16 = b :=
  ⟨BitVec.extractLsb'_append_eq_left, BitVec.extractLsb'_append_eq_right⟩

theorem cut_fieldT (r g b : Byte) :
    (fieldT r g b).extractLsb' 16 8 = r ∧ (fieldT r g b).extractLsb' 8 8 = g ∧ (fieldT r g b).extractLsb' 0 8 = b := by
  refine ⟨?_, ?_, BitVec.extractLsb'_append_eq_right⟩
  · exact (BitVec.extractLsb'_append_eq_of_le (by decide)).trans BitVec.extractLsb'_append_eq_left
  · exact (BitVec.extractLsb'_append_eq_of_le (by decide)).trans BitVec.extractLsb'_append_eq_right

theorem cut_fieldLowByte (x : Byte) :
    (fieldLowByte x).extractLsb' 8 16 = 0 ∧ (fieldLowByte x).extractLsb' 0 8 = x := by
  rw [fieldLowByte, BitVec.setWidth_eq_append (by decide)]
  exact ⟨BitVec.extractLsb'_append_eq_left, BitVec.extractLsb'_append_eq_right⟩

/-! ### The bits a row fixes (R83, R84) -/

/-- The operand bits a format's mask selects: they must be zero in a legal word (R81, R83). -/
def Format.mustBeZero : Format → OperandField
  | .z _ => 0xFFFFFF
  | .c _ => 0
  | .d _ => 0
  | .p _ => 0xFFFF00
  | .t _ => 0
  | .s _ => 0xFFFF00

theorem readLowByte_eq_ok_iff {op : Byte} {make : Byte → Instr} {f : OperandField} {i : Instr} :
    readLowByte op make f = .ok i ↔ f &&& 0xFFFF00 = 0 ∧ i = make (f.extractLsb' 0 8) := by
  rw [and_highBits_eq_zero_iff, readLowByte]
  split
  · next h => simp [h, eq_comm]
  · next h => exact ⟨nofun, fun hcommand => absurd hcommand.1 h⟩

theorem readOperands_eq_ok_iff {op : Byte} {fmt : Format} {f : OperandField} {i : Instr} :
    readOperands op fmt f = .ok i ↔ f &&& fmt.mustBeZero = 0 ∧ i = fmt.command f := by
  cases fmt with
  | z make =>
    rw [Format.mustBeZero, show (0xFFFFFF : OperandField) = BitVec.allOnes 24 from rfl, BitVec.and_allOnes, readOperands]
    split
    · next h => simp [h, Format.command, eq_comm]
    · next h => exact ⟨nofun, fun hcommand => absurd hcommand.1 h⟩
  | c make | d make | t make => simp [readOperands, Format.mustBeZero, Format.command, eq_comm]
  | p make => exact readLowByte_eq_ok_iff
  | s make => exact readLowByte_eq_ok_iff

theorem decode_eq_ok_iff {w : Word} {i : Instr} :
    decode w = .ok i ↔ opcodeField w = opcode i ∧ operandField w &&& (formatOf i).mustBeZero = 0 ∧
      i = (formatOf i).command (operandField w) := by
  rw [← readOperands_eq_ok_iff (op := opcode i)]
  refine ⟨decode_row, fun ⟨hop, hread⟩ => ?_⟩
  rw [decode, hop, opcodeRow_opcode]
  exact hread

/-! ### Encoding and decoding undo each other -/

/-- The operands of a command are joined within its format's bits and cut back out of them (R81). -/
theorem command_operands (i : Instr) :
    operands i &&& (formatOf i).mustBeZero = 0 ∧ i = (formatOf i).command (operands i) := by
  cases i with
  | nop | reset | geol | gend => exact ⟨rfl, rfl⟩
  | gchr cc => exact ⟨BitVec.and_zero, rfl⟩
  | q565 r g b | qmask r g b | palw r g b =>
    refine ⟨BitVec.and_zero, ?_⟩
    obtain ⟨hr, hg, hb⟩ := cut_fieldT r g b
    simp only [formatOf, Format.command, operands, hr, hg, hb]
  | gbegin a b | ibegin a b | rbegin a b =>
    refine ⟨BitVec.and_zero, ?_⟩
    obtain ⟨ha, hb⟩ := cut_fieldD a b
    simp only [formatOf, Format.command, operands, ha, hb]
  | palsel x | palclr x | ipix x | rpix x =>
    obtain ⟨hzero, hx⟩ := cut_fieldLowByte x
    refine ⟨(and_highBits_eq_zero_iff _).2 hzero, ?_⟩
    simp only [formatOf, Format.command, operands, hx]

theorem decode_encode (i : Instr) : decode (encode i) = .ok i := by
  rw [decode_eq_ok_iff, opcodeField_encode, operandField_encode]
  exact ⟨rfl, command_operands i⟩

/-- A field with its format's must-be-zero bits clear is the operand field of the command it builds. -/
theorem operands_command (i : Instr) {f : OperandField} (h : f &&& (formatOf i).mustBeZero = 0) :
    operands ((formatOf i).command f) = f := by
  cases i with
  | nop | reset | geol | gend => exact h.symm.trans BitVec.and_allOnes
  | gchr cc => rfl
  | q565 r g b | qmask r g b | palw r g b => exact fieldT_cut f
  | gbegin a b | ibegin a b | rbegin a b => exact fieldD_cut f
  | palsel x | palclr x | ipix x | rpix x => exact fieldLowByte_cut ((and_highBits_eq_zero_iff f).1 h)

theorem encode_of_decode {w : Word} {i : Instr} (h : decode w = .ok i) : encode i = w := by
  obtain ⟨hop, hzero, hi⟩ := decode_eq_ok_iff.1 h
  have hoperands : operands i = operandField w := by
    rw [hi]
    exact operands_command i hzero
  rw [encode, ← hop, hoperands, fields_append]

/-! ### The rows of the opcode map (R83) -/

/-- The row of a command, built from its opcode and its format. -/
def rowOf (i : Instr) : OpcodeRow :=
  ⟨mnemonic i, opcode i ++ (0 : OperandField), (0xFF : Byte) ++ (formatOf i).mustBeZero⟩

/-- Every command a row builds has that row, whatever its operands are. -/
theorem rowOf_command (i : Instr) (f : OperandField) :
    formatOf ((formatOf i).command f) = formatOf i ∧ rowOf ((formatOf i).command f) = rowOf i := by
  cases i <;> exact ⟨rfl, rfl⟩

/-- The table the spec writes and the map the decoder reads are the same fifteen rows. -/
theorem opcodeTable_eq_map : opcodeTable = opcodeMap.map fun row => rowOf (row.2.command 0) := by
  decide

theorem rowOf_mem (i : Instr) : rowOf i ∈ opcodeTable := by
  rw [opcodeTable_eq_map, ← (rowOf_command i 0).2]
  exact List.mem_map_of_mem (f := fun row : Byte × Format => rowOf (row.2.command 0))
    (mem_of_findRow (opcodeRow_opcode i))

theorem mem_opcodeTable {row : OpcodeRow} (h : row ∈ opcodeTable) : ∃ i, row = rowOf i := by
  rw [opcodeTable_eq_map] at h
  obtain ⟨r, -, rfl⟩ := List.mem_map.1 h
  exact ⟨_, rfl⟩

theorem opcodeTable_names_nodup : (opcodeTable.map OpcodeRow.name).Nodup := by
  decide

/-- Commands of one mnemonic have one row. -/
theorem rowOf_eq_of_mnemonic {i j : Instr} (h : mnemonic i = mnemonic j) : rowOf i = rowOf j :=
  List.inj_on_of_nodup_map opcodeTable_names_nodup (rowOf_mem i) (rowOf_mem j) h

/-- A word selects the row of a command iff it bears the command's opcode and zeros where the row's format wants them. -/
theorem selects_rowOf {w : Word} {i : Instr} :
    w &&& (rowOf i).mask = (rowOf i).bits ↔
      opcodeField w = opcode i ∧ operandField w &&& (formatOf i).mustBeZero = 0 := by
  have hmasked : w &&& (rowOf i).mask = opcodeField w ++ (operandField w &&& (formatOf i).mustBeZero) := by
    conv_lhs => rw [← fields_append w]
    rw [rowOf, BitVec.and_append, show (0xFF : Byte) = BitVec.allOnes 8 from rfl, BitVec.and_allOnes]
  rw [hmasked]
  exact word_inj

/-- A word that selects the row of a command decodes to the command that row builds. -/
theorem decode_of_selects {w : Word} {i : Instr} (h : w &&& (rowOf i).mask = (rowOf i).bits) :
    decode w = .ok ((formatOf i).command (operandField w)) := by
  obtain ⟨hop, hzero⟩ := selects_rowOf.1 h
  rw [decode, hop, opcodeRow_opcode]
  exact readOperands_eq_ok_iff.2 ⟨hzero, rfl⟩

theorem selects_of_decode {w : Word} {i : Instr} (h : decode w = .ok i) : w &&& (rowOf i).mask = (rowOf i).bits := by
  obtain ⟨hop, hzero, -⟩ := decode_eq_ok_iff.1 h
  exact selects_rowOf.2 ⟨hop, hzero⟩

/-- A word is legal iff it selects a row (R84). -/
theorem legal_iff_selects {w : Word} :
    (∃ i, decode w = .ok i) ↔ ∃ row ∈ opcodeTable, w &&& row.mask = row.bits := by
  constructor
  · rintro ⟨i, hdecode⟩
    exact ⟨rowOf i, rowOf_mem i, selects_of_decode hdecode⟩
  · rintro ⟨row, hrow, hselects⟩
    obtain ⟨i, rfl⟩ := mem_opcodeTable hrow
    exact ⟨_, decode_of_selects hselects⟩

end Sys2Proof

namespace Sys2Proof.Machine

variable {s : State}

/-! ### An illegal word (R84) -/

theorem serve_command_illegal {w : Word} {rest : List HostEvent} (h : s.input = .command w :: rest)
    (hlive : s.err.kind = .noError) (hillegal : ¬ ∃ i, decode w = .ok i) :
    serve s = .done { s with input := rest, err := { kind := .commandError, info := w } } := by
  have htaken : ¬ (s.faulted = true ∧ w ≠ resetWord) := fun ⟨hfault, _⟩ => (State.faulted_eq_true s).1 hfault hlive
  refine (serve_command h).trans ((if_neg htaken).trans ?_)
  split
  · next i hdecode => exact absurd ⟨i, hdecode⟩ hillegal
  · rfl

/-! ### An operand out of range (R85) -/

/-- A meaning raises an error and has no other effect. -/
def Raises (s : State) (r : Result) : Prop :=
  ∃ k info, k ≠ .noError ∧ r = raise k info s

/-- A check that fails raises its error; one that passes leaves the raising to what follows it (R193). -/
theorem Raises.check {c : Prop} [Decidable c] {k : ErrKind} {info : Word} {r : Result}
    (h : ¬ c → Raises s r) (hk : k ≠ .noError := by decide) : Raises s (if c then raise k info s else r) := by
  by_cases hc : c
  · exact ⟨k, info, hk, if_pos hc⟩
  · rw [if_neg hc]
    exact h hc

theorem Raises.live {body : Result} (hlive : s.err.kind = .noError) (h : Raises s body) :
    Raises s (unlessFaulted s body) := by
  rwa [unlessFaulted_live hlive]

/-- What raises ends in a next state with an error recorded and nothing else changed (R191). -/
theorem Raises.next {r : Result} (h : Raises s r) :
    ∃ t, r = .next t ∧ t = { s with err := t.err } ∧ t.err.kind ≠ .noError := by
  obtain ⟨k, info, hk, rfl⟩ := h
  exact ⟨s.recordError k info, rfl, rfl, hk⟩

theorem cellSizeOk_iff {a : Byte} {b : BitVec 16} : cellSizeOk a b = true ↔ a ≠ 0 ∧ b ≠ 0 ∧ b.toNat ≤ 8 := by
  simp [cellSizeOk, and_assoc]

theorem slotOk_iff {p : Byte} : slotOk p = true ↔ p.toNat ≤ 129 := decide_eq_true_iff

theorem imageSizeOk_iff {a : Byte} {b : BitVec 16} : imageSizeOk a b = true ↔ a.toNat % 2 = 0 ∧ b.toNat ≤ 255 := by
  simp [imageSizeOk]

theorem sheetSizeOk_iff {a : Byte} {b : BitVec 16} :
    sheetSizeOk a b = true ↔ a.toNat = 160 ∧ b ≠ 0 ∧ b.toNat % 128 = 0 := by
  simp [sheetSizeOk, and_assoc]

theorem pixelIndexOk_iff {idx : Byte} : pixelIndexOk idx = true ↔ idx.toNat ≤ 15 := decide_eq_true_iff

theorem execGbegin_raises {a : Byte} {b : BitVec 16} (hill : ¬ cellSizeOk a b = true) (hlive : s.err.kind = .noError) :
    Raises s (execGbegin a b s) :=
  .live hlive <| .check fun _ => .check fun hzero => .check fun hhigh =>
    have ⟨ha, hb⟩ := not_or.1 hzero
    absurd (cellSizeOk_iff.2 ⟨ha, hb, Nat.le_of_not_lt hhigh⟩) hill

theorem execPalsel_raises {p : Byte} (hill : ¬ slotOk p = true) (hlive : s.err.kind = .noError) :
    Raises s (execPalsel p s) :=
  .live hlive <| .check fun hp => absurd (slotOk_iff.2 (Nat.le_of_not_lt hp)) hill

theorem execPalclr_raises {p : Byte} (hill : ¬ slotOk p = true) (hlive : s.err.kind = .noError) :
    Raises s (execPalclr p s) :=
  .live hlive <| .check fun hp => absurd (slotOk_iff.2 (Nat.le_of_not_lt hp)) hill

theorem execIbegin_raises {a : Byte} {b : BitVec 16} (hill : ¬ imageSizeOk a b = true) (hlive : s.err.kind = .noError) :
    Raises s (execIbegin a b s) :=
  .live hlive <| .check fun _ => .check fun _ => .check fun hodd => .check fun hhigh =>
    absurd (imageSizeOk_iff.2 ⟨Nat.mod_two_ne_one.1 hodd, Nat.le_of_not_lt hhigh⟩) hill

theorem execIpix_raises {idx : Byte} (hill : ¬ pixelIndexOk idx = true) (hlive : s.err.kind = .noError) :
    Raises s (execIpix idx s) :=
  .live hlive <| .check fun _ => .check fun hidx => absurd (pixelIndexOk_iff.2 (Nat.le_of_not_lt hidx)) hill

theorem execRbegin_raises {a : Byte} {b : BitVec 16} (hill : ¬ sheetSizeOk a b = true) (hlive : s.err.kind = .noError) :
    Raises s (execRbegin a b s) :=
  .live hlive <| .check fun _ => .check fun _ => .check fun hsize =>
    have ⟨hwidth, hheight⟩ := not_or.1 hsize
    have ⟨hb, hframes⟩ := not_or.1 hheight
    absurd (sheetSizeOk_iff.2 ⟨not_not.1 hwidth, hb, not_not.1 hframes⟩) hill

theorem execRpix_raises {idx : Byte} (hill : ¬ pixelIndexOk idx = true) (hlive : s.err.kind = .noError) :
    Raises s (execRpix idx s) :=
  .live hlive <| .check fun _ => .check fun hidx => absurd (pixelIndexOk_iff.2 (Nat.le_of_not_lt hidx)) hill

/-- A command whose operand is out of range raises an error in every live state (R85). -/
theorem exec_raises {i : Instr} (hill : ¬ i.wellFormed = true) (hlive : s.err.kind = .noError) : Raises s (exec i s) := by
  cases i with
  | gbegin a b => exact execGbegin_raises hill hlive
  | palsel p => exact execPalsel_raises hill hlive
  | palclr p => exact execPalclr_raises hill hlive
  | ibegin a b => exact execIbegin_raises hill hlive
  | ipix idx => exact execIpix_raises hill hlive
  | rbegin a b => exact execRbegin_raises hill hlive
  | rpix idx => exact execRpix_raises hill hlive
  | _ => exact absurd rfl hill

/-! ### The fields of a packed value (R97) -/

theorem setWidth_ushiftRight {n k w : Nat} (x : BitVec (n + k)) (h : n + k ≤ w) :
    x.setWidth w >>> k = (x.extractLsb' k n).setWidth w := by
  apply BitVec.eq_of_toNat_eq
  have hlow : x.toNat >>> k < 2 ^ n := by
    rw [Nat.shiftRight_eq_div_pow]
    exact Nat.div_lt_of_lt_mul (x.isLt.trans_eq (by rw [Nat.pow_add, Nat.mul_comm]))
  rw [BitVec.toNat_ushiftRight, BitVec.toNat_setWidth_of_le h, BitVec.toNat_setWidth_of_le (by omega),
    BitVec.extractLsb'_toNat, Nat.mod_eq_of_lt hlow]

theorem setWidth_shiftLeft {n k : Nat} (x : BitVec n) : x.setWidth (n + k) <<< k = x ++ 0#k := by
  have h := BitVec.setWidth_append_eq_shiftLeft_setWidth_or (b := x) (b' := 0#k) (w'' := n + k)
  rw [BitVec.setWidth_eq, BitVec.setWidth_zero, BitVec.or_zero] at h
  exact h.symm

/-- The packed value is the high bits of its channels side by side (R110). -/
theorem q565_eq_append (r g b : Byte) : q565 r g b = r.extractLsb' 3 5 ++ g.extractLsb' 2 6 ++ b.extractLsb' 3 5 := by
  rw [q565, setWidth_ushiftRight (n := 5) (k := 3) r (by decide), setWidth_ushiftRight (n := 6) (k := 2) g (by decide),
    setWidth_ushiftRight (n := 5) (k := 3) b (by decide)]
  have h := BitVec.setWidth_append_append_eq_shiftLeft_setWidth_or (b := r.extractLsb' 3 5)
    (b' := g.extractLsb' 2 6) (b'' := b.extractLsb' 3 5) (w''' := 5 + 6 + 5)
  rw [BitVec.setWidth_eq] at h
  exact h.symm

/-- The fields of a packed value are the high bits of its channels (R97). -/
theorem q565_fields (r g b : Byte) :
    (q565 r g b).extractLsb' 11 5 = r.extractLsb' 3 5 ∧ (q565 r g b).extractLsb' 5 6 = g.extractLsb' 2 6 ∧
    (q565 r g b).extractLsb' 0 5 = b.extractLsb' 3 5 := by
  rw [q565_eq_append]
  refine ⟨?_, ?_, BitVec.extractLsb'_append_eq_right⟩
  · exact (BitVec.extractLsb'_append_eq_of_le (by decide)).trans BitVec.extractLsb'_append_eq_left
  · exact (BitVec.extractLsb'_append_eq_of_le (by decide)).trans BitVec.extractLsb'_append_eq_right

/-- The high bits of a value, shifted back, are the value with its low bits cleared. -/
theorem shiftLeft_extractLsb'_eq_and {n k : Nat} (x : BitVec (n + k)) :
    (x.extractLsb' k n).setWidth (n + k) <<< k = x &&& (BitVec.allOnes n ++ 0#k) := by
  rw [setWidth_shiftLeft, and_allOnes_append_zero]

end Sys2Proof.Machine

open Sys2Proof Sys2Proof.Machine

/-- Settles O1: the operands of each format are cut back out of the field they were joined into. -/
theorem decodeOfEncode : Obligations.DecodeOfEncode :=
  decode_encode

/-- Settles O2: a legal word has zeros where its format keeps no operand. -/
theorem encodeOfDecode : Obligations.EncodeOfDecode :=
  fun _ _ => encode_of_decode

/-- Settles O3: a row's word decodes to a command of that row, and the mnemonic of a command names its row. -/
theorem opcodeMapSelectsCommands : Obligations.OpcodeMapSelectsCommands := by
  refine ⟨fun w row hrow => ?_, opcodeTable_names_nodup, rfl⟩
  obtain ⟨i, rfl⟩ := mem_opcodeTable hrow
  constructor
  · intro hselects
    exact ⟨_, decode_of_selects hselects, congrArg OpcodeRow.name (rowOf_command i _).2⟩
  · rintro ⟨j, hdecode, hname⟩
    rw [← rowOf_eq_of_mnemonic hname]
    exact selects_of_decode hdecode

/-- Settles O4, from what serving a word comes to when it selects no row and when the block is faulted. -/
theorem illegalWordRaisesCommandError : Obligations.IllegalWordRaisesCommandError := by
  refine ⟨fun w => legal_iff_selects, fun s w rest hinput hlive hnone => ?_, fun s w rest hinput hfault hw => ?_⟩
  · have hillegal : ¬ ∃ i, decode w = .ok i := fun hlegal => by
      obtain ⟨row, hrow, hselects⟩ := legal_iff_selects.1 hlegal
      exact hnone row hrow hselects
    rw [step, serve_command_illegal hinput hlive hillegal]
  · rw [step, serve_command_discarded hinput hfault hw]

/-- Settles O5: the check an out-of-range operand fails comes before every effect of its command. -/
theorem outOfRangeOperandRaises : Obligations.OutOfRangeOperandRaises :=
  fun _ _ hill hlive => (exec_raises (Bool.eq_false_iff.1 hill) hlive).next

/-- Settles O12: a field of the packed value is the high bits of its channel. -/
theorem packedFieldsAreMaskedChannels : Obligations.PackedFieldsAreMaskedChannels := by
  intro r g b
  obtain ⟨hr, hg, hb⟩ := q565_fields r g b
  rw [hr, hg, hb]
  exact ⟨shiftLeft_extractLsb'_eq_and (n := 5) (k := 3) r, shiftLeft_extractLsb'_eq_and (n := 6) (k := 2) g,
    shiftLeft_extractLsb'_eq_and (n := 5) (k := 3) b⟩

/-- Settles O6: each word is the encoding of its command. -/
theorem sampleWordsDecode : Obligations.SampleWordsDecode :=
  ⟨decode_encode .nop, decode_encode (.q565 0x12 0x34 0x56), decode_encode (.gbegin 5 3), decode_encode (.palclr 129),
    decode_encode (.ibegin 254 255), decode_encode (.rbegin 160 256)⟩
end

section
/-! SUPPORT. The quantizer by its numbers: the packed value and the masked channels as natural numbers, the word of a
format T command, and what a command that only emits leaves unchanged. -/

namespace Sys2Proof

/-- The word of a format T command: its opcode and its three operands, each shifted to its place (R81). -/
theorem word_fieldT_eq_or (op r g b : Byte) : (op ++ fieldT r g b : Word) =
    (op.setWidth 32 <<< 24) ||| (r.setWidth 32 <<< 16) ||| (g.setWidth 32 <<< 8) ||| b.setWidth 32 := by
  have hfield : (fieldT r g b).setWidth 32 = (r.setWidth 32 <<< 16) ||| (g.setWidth 32 <<< 8) ||| b.setWidth 32 :=
    BitVec.setWidth_append_append_eq_shiftLeft_setWidth_or
  rw [word_eq_or, hfield, ← BitVec.or_assoc, ← BitVec.or_assoc]

end Sys2Proof

namespace Sys2Proof.Machine

variable {s t : State}

/-! ### The packed value (R110) -/

theorem toNat_extractLsb'_high {n k : Nat} (x : BitVec (n + k)) : (x.extractLsb' k n).toNat = x.toNat / 2 ^ k := by
  rw [BitVec.extractLsb'_toNat, Nat.shiftRight_eq_div_pow]
  exact Nat.mod_eq_of_lt (Nat.div_lt_of_lt_mul (x.isLt.trans_eq (by rw [Nat.pow_add, Nat.mul_comm])))

/-- The high bits of the channels that a packed value keeps (R110). -/
theorem channels_high_toNat (r g b : Byte) :
    (r.extractLsb' 3 5).toNat = r.toNat / 8 ∧ (g.extractLsb' 2 6).toNat = g.toNat / 4 ∧
    (b.extractLsb' 3 5).toNat = b.toNat / 8 :=
  ⟨toNat_extractLsb'_high (n := 5) (k := 3) r, toNat_extractLsb'_high (n := 6) (k := 2) g,
    toNat_extractLsb'_high (n := 5) (k := 3) b⟩

/-- The fields of a packed value are its channels, cut off at the right (R114). -/
theorem q565_fields_toNat (r g b : Byte) :
    ((q565 r g b).extractLsb' 11 5).toNat = r.toNat / 8 ∧ ((q565 r g b).extractLsb' 5 6).toNat = g.toNat / 4 ∧
    ((q565 r g b).extractLsb' 0 5).toNat = b.toNat / 8 := by
  obtain ⟨hr, hg, hb⟩ := q565_fields r g b
  rw [hr, hg, hb]
  exact channels_high_toNat r g b

/-- A value is its high part, scaled up, plus its low part: the two do not overlap. -/
theorem toNat_append_eq_add {n k : Nat} (x : BitVec n) (y : BitVec k) :
    (x ++ y).toNat = x.toNat * 2 ^ k + y.toNat := by
  rw [BitVec.toNat_append, ← Nat.shiftLeft_add_eq_or_of_lt y.isLt, Nat.shiftLeft_eq]

theorem q565_toNat (r g b : Byte) :
    (q565 r g b).toNat = r.toNat / 8 * 2048 + g.toNat / 4 * 32 + b.toNat / 8 := by
  obtain ⟨hr, hg, hb⟩ := channels_high_toNat r g b
  rw [q565_eq_append, toNat_append_eq_add, toNat_append_eq_add, hr, hg, hb]
  omega

theorem q565_toNat_eq_or (r g b : Byte) :
    (q565 r g b).toNat = ((r.toNat >>> 3) <<< 11) ||| ((g.toNat >>> 2) <<< 5) ||| (b.toNat >>> 3) := by
  obtain ⟨hr, hg, hb⟩ := channels_high_toNat r g b
  rw [q565_eq_append, BitVec.toNat_append, BitVec.toNat_append, Nat.shiftLeft_or_distrib, ← Nat.shiftLeft_add, hr, hg,
    hb]
  simp only [Nat.shiftRight_eq_div_pow]

/-! ### The masked triple (R112) -/

theorem colour_eq_or (r g b : Byte) :
    colour r g b = (r.setWidth 24 <<< 16) ||| (g.setWidth 24 <<< 8) ||| b.setWidth 24 := by
  have h := BitVec.setWidth_append_append_eq_shiftLeft_setWidth_or (b := r) (b' := g) (b'' := b) (w''' := 8 + 8 + 8)
  rwa [BitVec.setWidth_eq] at h

/-- Clearing the low bits of a value leaves the multiple of their weight below it. -/
theorem toNat_and_high {n k : Nat} (x : BitVec (n + k)) :
    (x &&& (BitVec.allOnes n ++ 0#k)).toNat = x.toNat / 2 ^ k * 2 ^ k := by
  rw [and_allOnes_append_zero, toNat_append_eq_add, toNat_extractLsb'_high, BitVec.toNat_zero, Nat.add_zero]

/-- The channels of the masked triple (R112). -/
theorem qmask_channels (r g b : Byte) :
    redOf (qmask r g b) = r &&& 0xF8 ∧ greenOf (qmask r g b) = g &&& 0xFC ∧ blueOf (qmask r g b) = b &&& 0xF8 :=
  ⟨redOf_colour _ _ _, greenOf_colour _ _ _, blueOf_colour _ _ _⟩

theorem qmask_channels_toNat (r g b : Byte) :
    (redOf (qmask r g b)).toNat = r.toNat / 8 * 8 ∧ (greenOf (qmask r g b)).toNat = g.toNat / 4 * 4 ∧
    (blueOf (qmask r g b)).toNat = b.toNat / 8 * 8 := by
  obtain ⟨hr, hg, hb⟩ := qmask_channels r g b
  rw [hr, hg, hb]
  exact ⟨toNat_and_high (n := 5) (k := 3) r, toNat_and_high (n := 6) (k := 2) g, toNat_and_high (n := 5) (k := 3) b⟩

/-- The mask is idempotent (R114). -/
theorem qmask_idempotent (r g b : Byte) :
    qmask (redOf (qmask r g b)) (greenOf (qmask r g b)) (blueOf (qmask r g b)) = qmask r g b := by
  obtain ⟨hr, hg, hb⟩ := qmask_channels r g b
  rw [hr, hg, hb]
  simp only [qmask, BitVec.and_assoc, BitVec.and_self]

/-- A masked triple packs to the same value: the cleared bits are those the packing drops (R114). -/
theorem q565_qmask (r g b : Byte) :
    q565 (redOf (qmask r g b)) (greenOf (qmask r g b)) (blueOf (qmask r g b)) = q565 r g b := by
  obtain ⟨hr, hg, hb⟩ := qmask_channels_toNat r g b
  apply BitVec.eq_of_toNat_eq
  rw [q565_toNat, q565_toNat, hr, hg, hb]
  simp only [Nat.mul_div_cancel _ (Nat.succ_pos _)]

/-- A larger triple, channel by channel, packs to no smaller a value (R114). -/
theorem q565_mono {r1 r2 g1 g2 b1 b2 : Byte} (hr : r1 ≤ r2) (hg : g1 ≤ g2) (hb : b1 ≤ b2) :
    q565 r1 g1 b1 ≤ q565 r2 g2 b2 := by
  rw [BitVec.le_def] at hr hg hb ⊢
  rw [q565_toNat, q565_toNat]
  gcongr

/-! ### The commands (R111, R113, R180) -/

theorem isQuantizerCommand_iff {i : Instr} :
    isQuantizerCommand i = true ↔ (∃ r g b, i = .q565 r g b) ∨ ∃ r g b, i = .qmask r g b := by
  cases i <;> simp [isQuantizerCommand, familyOf]

/-- A command without checks that only emits changes nothing but the output sequence. -/
theorem unlessFaulted_emit_frame {items : List OutItem} (h : unlessFaulted s (.next (s.emit items)) = .next t) :
    t = { s with out := t.out } := by
  obtain ⟨-, rfl⟩ | ⟨-, hemit⟩ := unlessFaulted_next h
  · rfl
  · rw [next_inj hemit]
    rfl

theorem quantizerCommand_frame {i : Instr} (hi : isQuantizerCommand i = true ∨ i = .nop) (h : exec i s = .next t) :
    t = { s with out := t.out } := by
  rw [isQuantizerCommand_iff] at hi
  obtain (⟨r, g, b, rfl⟩ | ⟨r, g, b, rfl⟩) | rfl := hi
  · exact unlessFaulted_emit_frame h
  · exact unlessFaulted_emit_frame h
  · rw [next_inj ((execNop_eq s).symm.trans h)]

end Sys2Proof.Machine

open Sys2Proof Sys2Proof.Machine

/-- Settles O9: the packed value is the high bits of its channels side by side. -/
theorem q565PacksTruncatedChannels : Obligations.Q565PacksTruncatedChannels := by
  intro r g b
  have hr : r.toNat < 256 := r.isLt
  have hg : g.toNat < 256 := g.isLt
  have hb : b.toNat < 256 := b.isLt
  refine ⟨q565_toNat_eq_or r g b, q565_toNat r g b, ?_, ?_, ?_, Nat.le_of_lt_succ (q565 r g b).isLt⟩ <;> omega

/-- Settles O10: each channel loses its low bits and keeps its place. -/
theorem qmaskClearsLowBits : Obligations.QmaskClearsLowBits := by
  intro r g b
  obtain ⟨hr, hg, hb⟩ := qmask_channels r g b
  exact ⟨hr, hg, hb, colour_eq_or _ _ _, qmask_channels_toNat r g b⟩

/-- Settles O11, from the packed value and the masked channels as numbers. -/
theorem quantizerLaws : Obligations.QuantizerLaws := by
  refine ⟨fun _ _ _ _ h => q565_mono h (BitVec.le_refl _) (BitVec.le_refl _),
    fun _ _ _ _ h => q565_mono (BitVec.le_refl _) h (BitVec.le_refl _),
    fun _ _ _ _ h => q565_mono (BitVec.le_refl _) (BitVec.le_refl _) h, fun r g b => ?_,
    fun r g b => ⟨qmask_idempotent r g b, q565_qmask r g b⟩, fun r g b k => ?_⟩
  · simpa only [Nat.shiftRight_eq_div_pow] using q565_fields_toNat r g b
  · obtain ⟨hr, hg, hb⟩ := q565_fields_toNat r g b
    rw [hr, hg, hb]
    omega

/-- Settles O13: `Q565` checks nothing, so a live block emits the packed value and goes on. -/
theorem q565EmitsOneItem : Obligations.Q565EmitsOneItem :=
  fun r g b _ => ⟨word_fieldT_eq_or 0x10 r g b, fun hlive => unlessFaulted_live hlive _⟩

/-- Settles O14: `QMASK` checks nothing, so a live block emits the masked triple and goes on. -/
theorem qmaskEmitsOneItem : Obligations.QmaskEmitsOneItem :=
  fun r g b _ => ⟨word_fieldT_eq_or 0x11 r g b, fun hlive => unlessFaulted_live hlive _⟩

/-- Settles O43, from the frame of a command that only emits. -/
theorem quantizerFrame : Obligations.QuantizerFrame := by
  intro i s t hi h
  have hframe := quantizerCommand_frame hi h
  exact ⟨hframe, fun k c => by rw [hframe], fun slot e => by rw [hframe]⟩
end

section
/-! SUPPORT. The glyph unit command by command: what a live block answers in each phase and on each kind of line, the
digits of a hex escape, one bit of the font after a write, and the items of the font block. -/

namespace Sys2Proof

/-- The word of a format D command: its opcode and its two operands, each shifted to its place (R81). -/
theorem word_fieldD_eq_or (op a : Byte) (b : BitVec 16) : (op ++ fieldD a b : Word) =
    (op.setWidth 32 <<< 24) ||| (a.setWidth 32 <<< 16) ||| b.setWidth 32 := by
  have hfield : (fieldD a b).setWidth 32 = (a.setWidth 32 <<< 16) ||| b.setWidth 32 :=
    BitVec.setWidth_append_eq_shiftLeft_setWidth_or
  rw [word_eq_or, hfield, ← BitVec.or_assoc]

end Sys2Proof

namespace Sys2Proof.Machine

/-! ### Hexadecimal digits (R126) -/

section
variable {cc : CharCode}

theorem hexval_decimal (hlo : 0x30 ≤ cc.toNat) (hhi : cc.toNat ≤ 0x39) :
    (hexval cc).map BitVec.toNat = some (cc.toNat - 0x30) := by
  rw [hexval, if_pos ⟨hlo, hhi⟩, Option.map_some, BitVec.toNat_ofNat, Nat.mod_eq_of_lt (by omega)]

theorem hexval_upper (hlo : 0x41 ≤ cc.toNat) (hhi : cc.toNat ≤ 0x46) :
    (hexval cc).map BitVec.toNat = some (cc.toNat - 0x41 + 10) := by
  rw [hexval, if_neg (by omega), if_pos ⟨hlo, hhi⟩, Option.map_some, BitVec.toNat_ofNat, Nat.mod_eq_of_lt (by omega)]

theorem hexval_lower (hlo : 0x61 ≤ cc.toNat) (hhi : cc.toNat ≤ 0x66) :
    (hexval cc).map BitVec.toNat = some (cc.toNat - 0x61 + 10) := by
  rw [hexval, if_neg (by omega), if_neg (by omega), if_pos ⟨hlo, hhi⟩, Option.map_some, BitVec.toNat_ofNat,
    Nat.mod_eq_of_lt (by omega)]

theorem hexval_eq_none (h : cc.toNat < 0x30 ∨ (0x39 < cc.toNat ∧ cc.toNat < 0x41) ∨
    (0x46 < cc.toNat ∧ cc.toNat < 0x61) ∨ 0x66 < cc.toNat) : hexval cc = none := by
  rw [hexval, if_neg (by omega), if_neg (by omega), if_neg (by omega)]

/-- The mark `#` of an escape is no digit. -/
theorem ne_hash_of_hexval {h : BitVec 4} (hdigit : hexval cc = some h) : cc ≠ 0x23 := by
  rintro rfl
  cases hdigit

end

/-! ### The live commands, phase by phase -/

section
variable {s : State} {a : Byte} {b : BitVec 16} {cc : CharCode} (hlive : s.err.kind = .noError)
include hlive

theorem execGbegin_opens (hp : s.glyph.gph = .gIdle) (ha : a ≠ 0) (hb : b ≠ 0)
    (hb8 : b.toNat ≤ 8) :
    exec (.gbegin a b) s = .next { s with
      font := []
      glyph :=
        { gw := a, gh := b.setWidth 4, gph := .gHdr, hk := .hkNone, gcode := 0, grow := 0, gpos := 0, line := 2 } } := by
  refine (unlessFaulted_live hlive _).trans ?_
  rw [if_neg (not_not.2 hp), if_neg (not_or.2 ⟨ha, hb⟩), if_neg hb8.not_gt]

theorem execGbegin_notIdle (hp : s.glyph.gph ≠ .gIdle) :
    exec (.gbegin a b) s = raise .commandError (encode (.gbegin a b)) s :=
  (unlessFaulted_live hlive _).trans (if_pos hp)

/-- Both size checks of `GBEGIN` raise the same error (R121). -/
theorem execGbegin_badSize (hp : s.glyph.gph = .gIdle) (hsize : a = 0 ∨ b = 0 ∨ 8 < b.toNat) :
    exec (.gbegin a b) s = raise .parseError 1 s := by
  refine (unlessFaulted_live hlive _).trans ((if_neg (not_not.2 hp)).trans ?_)
  rcases or_assoc.2 hsize with hzero | hhigh
  · rw [if_pos hzero]
  · rw [if_pos hhigh, ite_self]

theorem execGchr_idle (hp : s.glyph.gph = .gIdle) :
    exec (.gchr cc) s = raise .commandError (encode (.gchr cc)) s := by
  refine (unlessFaulted_live hlive _).trans ?_
  rw [hp]

theorem execGchr_header (hp : s.glyph.gph = .gHdr) : exec (.gchr cc) s = gchrHeader cc s := by
  refine (unlessFaulted_live hlive _).trans ?_
  rw [hp]

theorem execGchr_data (hp : s.glyph.gph = .gData) : exec (.gchr cc) s = gchrData cc s := by
  refine (unlessFaulted_live hlive _).trans ?_
  rw [hp]

theorem execGeol_idle (hp : s.glyph.gph = .gIdle) : exec .geol s = raise .commandError (encode .geol) s := by
  refine (unlessFaulted_live hlive _).trans ?_
  rw [hp]

theorem execGeol_header (hp : s.glyph.gph = .gHdr) : exec .geol s = geolHeader s := by
  refine (unlessFaulted_live hlive _).trans ?_
  rw [hp]

theorem execGeol_data (hp : s.glyph.gph = .gData) : exec .geol s = geolData s := by
  refine (unlessFaulted_live hlive _).trans ?_
  rw [hp]

theorem execGend_idle (hp : s.glyph.gph = .gIdle) : exec .gend s = raise .commandError (encode .gend) s := by
  refine (unlessFaulted_live hlive _).trans ?_
  rw [hp]

/-- The font does not end inside a glyph or a header (R131). -/
theorem execGend_unfinished (hp : s.glyph.gph = .gData ∨ (s.glyph.gph = .gHdr ∧ s.glyph.hk ≠ .hkNone)) :
    exec .gend s = raiseAtLine s := by
  refine (unlessFaulted_live hlive _).trans ?_
  rcases hp with hp | ⟨hp, hk⟩
  · rw [hp]
  · rw [hp]
    exact if_pos hk

theorem execGend_finished (hp : s.glyph.gph = .gHdr) (hk : s.glyph.hk = .hkNone) :
    exec .gend s = .next ({ s with glyph := { s.glyph with gph := .gIdle } }.emit
      ((fontBlock s.font s.glyph.gw s.glyph.gh).map (byteItem .font))) := by
  refine (unlessFaulted_live hlive _).trans ?_
  rw [hp]
  exact if_neg (not_not.2 hk)

end

/-! ### A header line, by `HK` (R124 to R127, R129) -/

section
variable {cc : CharCode} {s : State}

theorem gchrHeader_hkNone (hk : s.glyph.hk = .hkNone) : gchrHeader cc s = gchrFirst cc s := by
  rw [gchrHeader, hk]

theorem gchrHeader_hkEsc (hk : s.glyph.hk = .hkEsc) : gchrHeader cc s = gchrAfterHash cc s := by
  rw [gchrHeader, hk]

theorem gchrHeader_hkHex (hk : s.glyph.hk = .hkHex) : gchrHeader cc s = gchrHexDigit cc s := by
  rw [gchrHeader, hk]

theorem gchrHeader_hkDone (hk : s.glyph.hk = .hkDone) : gchrHeader cc s = .next s := by
  rw [gchrHeader, hk]

theorem gchrFirst_high (hhigh : 128 ≤ cc.toNat) : gchrFirst cc s = raiseAtLine s := by
  have hne : cc ≠ 0x23 := by
    rintro rfl
    exact absurd hhigh (by decide)
  rw [gchrFirst, if_neg hne, if_pos hhigh]

theorem gchrFirst_code (hne : cc ≠ 0x23) (hlow : cc.toNat < 128) :
    gchrFirst cc s = .next { s with glyph := { s.glyph with gcode := cc.setWidth 7, hk := .hkDone } } := by
  rw [gchrFirst, if_neg hne, if_neg hlow.not_ge]

theorem gchrAfterHash_digit {h : BitVec 4} (hdigit : hexval cc = some h) :
    gchrAfterHash cc s = .next { s with glyph := { s.glyph with gcode := h.setWidth 7, hk := .hkHex } } := by
  rw [gchrAfterHash, if_neg (ne_hash_of_hexval hdigit), hdigit]

theorem gchrAfterHash_other (hne : cc ≠ 0x23) (hnone : hexval cc = none) : gchrAfterHash cc s = raiseAtLine s := by
  rw [gchrAfterHash, if_neg hne, hnone]

theorem gchrHexDigit_other (hnone : hexval cc = none) : gchrHexDigit cc s = raiseAtLine s := by
  rw [gchrHexDigit, hnone]

theorem gchrHexDigit_overflow {h : BitVec 4} (hdigit : hexval cc = some h)
    (hhigh : 128 ≤ s.glyph.gcode.toNat * 16 + h.toNat) : gchrHexDigit cc s = raiseAtLine s := by
  rw [gchrHexDigit, hdigit]
  exact if_pos hhigh

theorem gchrHexDigit_digit {h : BitVec 4} (hdigit : hexval cc = some h)
    (hlow : s.glyph.gcode.toNat * 16 + h.toNat < 128) :
    gchrHexDigit cc s = .next { s with
      glyph := { s.glyph with gcode := BitVec.ofNat 7 (s.glyph.gcode.toNat * 16 + h.toNat) } } := by
  rw [gchrHexDigit, hdigit]
  exact if_neg hlow.not_ge

theorem geolHeader_incomplete (hk : s.glyph.hk = .hkNone ∨ s.glyph.hk = .hkEsc) : geolHeader s = raiseAtLine s := by
  rcases hk with hk | hk <;> rw [geolHeader, hk]

theorem geolHeader_complete (hk : s.glyph.hk = .hkDone ∨ s.glyph.hk = .hkHex) :
    geolHeader s = .next { s with
      glyph := { s.glyph with gph := .gData, grow := 0, gpos := 0, hk := .hkNone, line := s.glyph.line + 1 } } := by
  rcases hk with hk | hk <;> rw [geolHeader, hk]

end

/-! ### A data line (R128, R130) -/

section
variable {cc : CharCode} {s : State}

theorem ink_iff : ink cc = true ↔ cc = 0x58 ∨ cc = 0x78 := by
  simp [ink]

theorem gchrData_inside (hpos : s.glyph.gpos.toNat < s.glyph.gw.toNat) (hrow : s.glyph.grow.toNat < 8) :
    gchrData cc s = .next { s with
      font := fontWriteBit s.font s.glyph.gcode.toNat s.glyph.gpos.toNat s.glyph.grow.toNat (ink cc)
      glyph := { s.glyph with gpos := s.glyph.gpos + 1 } } := by
  rw [gchrData, if_pos hpos]
  exact if_pos hrow

theorem gchrData_past (hpos : s.glyph.gw.toNat ≤ s.glyph.gpos.toNat) : gchrData cc s = .next s :=
  if_neg hpos.not_gt

theorem geolData_short (hpos : s.glyph.gpos.toNat < s.glyph.gw.toNat) : geolData s = raiseAtLine s :=
  if_pos hpos

theorem geolData_last (hpos : s.glyph.gw.toNat ≤ s.glyph.gpos.toNat) (hlast : s.glyph.grow.toNat + 1 = s.glyph.gh.toNat) :
    geolData s =
      .next { s with glyph := { s.glyph with gpos := 0, line := s.glyph.line + 1, grow := 0, gph := .gHdr } } := by
  rw [geolData, if_neg hpos.not_gt, if_pos hlast]

theorem geolData_notLast (hpos : s.glyph.gw.toNat ≤ s.glyph.gpos.toNat)
    (hrow : s.glyph.grow.toNat + 1 ≠ s.glyph.gh.toNat) :
    geolData s =
      .next { s with glyph := { s.glyph with gpos := 0, line := s.glyph.line + 1, grow := s.glyph.grow + 1 } } := by
  rw [geolData, if_neg hpos.not_gt, if_neg hrow]

/-- One bit of the font after a one-bit write: the written one, every other as before. -/
theorem getLsbD_fontMask_writeBit {m : Memory 8} (hm : Memory.wf fontUnlisted m) {k c r k' c' r' : Nat} (bit : Bool)
    (hc : c < 256) (hc' : c' < 256) (hr : r < 8) :
    (fontMask (fontWriteBit m k c r bit) k' c').getLsbD r' =
      if k' = k ∧ c' = c ∧ r' = r then bit else (fontMask m k' c').getLsbD r' := by
  rw [fontMask_writeBit hm bit hc hc']
  by_cases hmask : k' = k ∧ c' = c
  · obtain ⟨rfl, rfl⟩ := hmask
    simp [getLsbD_setRow _ _ _ _ hr]
  · rw [if_neg hmask, if_neg fun ⟨hk, hc, _⟩ => hmask ⟨hk, hc⟩]

end

/-! ### What `GCHR` never changes (R123) -/

theorem execGchr_frame {cc : CharCode} {s t : State} (h : exec (.gchr cc) s = .next t) :
    t = { s with glyph := t.glyph, font := t.font, err := t.err } ∧
    t.glyph = { s.glyph with hk := t.glyph.hk, gcode := t.glyph.gcode, gpos := t.glyph.gpos } := by
  obtain hno | ⟨-, -, ht⟩ | ⟨-, -, -, -, rfl⟩ := execGchr_next h
  · rw [hno.eq_except_err]
    exact ⟨rfl, rfl⟩
  · rw [ht]
    exact ⟨rfl, rfl⟩
  · exact ⟨rfl, rfl⟩

/-! ### The font block (R93, R131) -/

theorem length_flatMap_groups {α β : Type} {f : α → List β} {w : Nat} (hlen : ∀ x, (f x).length = w) (l : List α) :
    (l.flatMap f).length = l.length * w := by
  simp [List.length_flatMap, hlen]

/-- In a list of groups of one length `w`, item `c` of group `k` stands at index `k * w + c`. -/
theorem getElem?_flatMap_groups {α β : Type} {f : α → List β} {w c : Nat} (hlen : ∀ x, (f x).length = w) (hc : c < w)
    (l : List α) (k : Nat) : (l.flatMap f)[k * w + c]? = l[k]?.bind fun x => (f x)[c]? := by
  induction l generalizing k with
  | nil => simp
  | cons x xs ih =>
    rw [List.flatMap_cons]
    cases k with
    | zero => rw [List.getElem?_append_left (by rw [hlen]; omega)]; simp
    | succ k =>
      have hindex : (k + 1) * w + c = w + (k * w + c) := by rw [Nat.succ_mul]; omega
      rw [hindex, List.getElem?_append_right (by rw [hlen]; omega), hlen, Nat.add_sub_cancel_left, ih,
        List.getElem?_cons_succ]

theorem length_glyphColumns (m : Memory 8) (w k : Nat) : (glyphColumns m w k).length = w := by
  simp [glyphColumns]

theorem length_fontBlock (m : Memory 8) (w : Byte) (h : BitVec 4) :
    (fontBlock m w h).length = 2 + 128 * w.toNat := by
  rw [fontBlock, List.length_cons, List.length_cons, length_flatMap_groups (length_glyphColumns m w.toNat),
    List.length_range, Config.nGlyph]
  omega

/-- The mask of column `c` of glyph `k` follows the two sizes and the columns before it (R131). -/
theorem getElem?_fontBlock_mask (m : Memory 8) (w : Byte) (h : BitVec 4) {k c : Nat} (hk : k < 128) (hc : c < w.toNat) :
    (fontBlock m w h)[2 + k * w.toNat + c]? = some (fontMask m k c) := by
  have hcolumn : (glyphColumns m w.toNat k)[c]? = some (fontMask m k c) := by
    rw [glyphColumns, List.getElem?_map, List.getElem?_range hc, Option.map_some]
  rw [fontBlock, show 2 + k * w.toNat + c = k * w.toNat + c + 1 + 1 by omega, List.getElem?_cons_succ,
    List.getElem?_cons_succ, getElem?_flatMap_groups (length_glyphColumns m w.toNat) hc, Config.nGlyph,
    List.getElem?_range hk]
  exact hcolumn

end Sys2Proof.Machine

open Sys2Proof Sys2Proof.Machine

/-- Settles O15: the checks in their order, and the font of the new size once all pass. -/
theorem gbeginOpensEmptyFont : Obligations.GbeginOpensEmptyFont := by
  intro a b s
  refine ⟨word_fieldD_eq_or 0x20 a b, execGbegin_notIdle, execGbegin_badSize, fun hlive hp ha hb hb8 => ?_⟩
  refine ⟨_, execGbegin_opens hlive hp ha hb hb8, rfl, fun k c _ _ => fontMask_nil k c, rfl, ?_, rfl, rfl, rfl, rfl, rfl,
    rfl⟩
  rw [BitVec.toNat_setWidth]
  omega

/-- Settles O16: the digits of the three ranges, and the header line's character by `HK`. -/
theorem gchrReadsHeaderLine : Obligations.GchrReadsHeaderLine := by
  refine ⟨fun cc => ⟨hexval_decimal, hexval_upper, hexval_lower, hexval_eq_none⟩, fun cc s hlive hp => ?_⟩
  rw [execGchr_header hlive hp]
  refine ⟨fun hk hcc => ?_, fun hk hhigh => ?_, fun hk hne hlow => ?_, fun hk hcc => ?_, fun hk h hdigit => ?_,
    fun hk hne hnone => ?_, fun hk hnone => ?_, fun hk h hdigit hhigh => ?_, fun hk h hdigit hlow => ?_,
    gchrHeader_hkDone⟩
  · exact (gchrHeader_hkNone hk).trans (if_pos hcc)
  · exact (gchrHeader_hkNone hk).trans (gchrFirst_high hhigh)
  · rw [gchrHeader_hkNone hk, gchrFirst_code hne hlow, BitVec.setWidth_eq_extractLsb' (by decide)]
  · exact (gchrHeader_hkEsc hk).trans (if_pos hcc)
  · exact (gchrHeader_hkEsc hk).trans (gchrAfterHash_digit hdigit)
  · exact (gchrHeader_hkEsc hk).trans (gchrAfterHash_other hne hnone)
  · exact (gchrHeader_hkHex hk).trans (gchrHexDigit_other hnone)
  · exact (gchrHeader_hkHex hk).trans (gchrHexDigit_overflow hdigit hhigh)
  · refine ⟨_, (gchrHeader_hkHex hk).trans (gchrHexDigit_digit hdigit hlow), rfl, ?_⟩
    exact (BitVec.toNat_ofNat _ _).trans (Nat.mod_eq_of_lt hlow)

/-- Settles O17, from the bits of the font after a one-bit write. -/
theorem gchrWritesOneFontBit : Obligations.GchrWritesOneFontBit := by
  refine ⟨fun _ => ink_iff, fun cc s hlive hp hpos hrow hwf => ?_, fun cc s hlive hp hpos => ?_⟩
  · refine ⟨_, (execGchr_data hlive hp).trans (gchrData_inside hpos hrow), rfl, fun k c r _ hc _ => ?_⟩
    exact getLsbD_fontMask_writeBit hwf (ink cc) s.glyph.gpos.isLt (Nat.lt_succ_of_lt hc) hrow
  · exact (execGchr_data hlive hp).trans (gchrData_past hpos)

/-- Settles O18: the word, the idle error, and the frame of every way `GCHR` ends. -/
theorem gchrFrame : Obligations.GchrFrame :=
  fun cc _ => ⟨word_eq_or 0x21 cc, execGchr_idle, fun _ => execGchr_frame⟩

/-- Settles O19: the header line is complete once a code stands in `GCODE`. -/
theorem geolEndsHeaderLine : Obligations.GeolEndsHeaderLine := by
  refine ⟨rfl, fun s hlive => ⟨execGeol_idle hlive, fun hp hk => ?_, fun hp hk => ?_⟩⟩
  · exact (execGeol_header hlive hp).trans (geolHeader_incomplete hk)
  · exact ⟨_, (execGeol_header hlive hp).trans (geolHeader_complete hk), rfl, rfl, BitVec.toNat_add _ _⟩

/-- Settles O20: a short line, the last line of a glyph, and a line before it. -/
theorem geolEndsDataLine : Obligations.GeolEndsDataLine := by
  intro s hlive hp
  rw [execGeol_data hlive hp]
  refine ⟨geolData_short, fun hpos hlast => ?_, fun hpos hrow => ?_⟩
  · exact ⟨_, geolData_last hpos hlast, rfl, rfl, BitVec.toNat_add _ _⟩
  · exact ⟨_, geolData_notLast hpos hrow.ne, rfl, rfl, toNat_succ_of_lt (Nat.lt_of_succ_lt hrow), BitVec.toNat_add _ _⟩

/-- Settles O21, from the length of the font block and the places of its bytes. -/
theorem gendEmitsFontBlock : Obligations.GendEmitsFontBlock := by
  refine ⟨rfl, fun s hlive => ⟨execGend_idle hlive, execGend_unfinished hlive, fun hp hk => ?_⟩⟩
  refine ⟨_, execGend_finished hlive hp hk, ?_, rfl, ?_, fun k c hkk hc => ?_⟩
  · rw [List.length_map, length_fontBlock]
  · have hheight : (s.glyph.gh.setWidth 8).setWidth 24 = s.glyph.gh.setWidth 24 :=
      BitVec.setWidth_setWidth (by decide)
    rw [← hheight]
    rfl
  · rw [List.getElem?_map, getElem?_fontBlock_mask s.font s.glyph.gw s.glyph.gh hkk hc]
    rfl
end

section
/-! SUPPORT. The palette store command by command: which slots are busy, what a live block answers, the slots that
a step leaves alone while a unit reads them, and that no state of the invariant stops. -/

namespace Sys2Proof

/-- The word of a format P or S command: its opcode and its one operand (R81). -/
theorem word_fieldLowByte_eq_or (op x : Byte) :
    (op ++ fieldLowByte x : Word) = (op.setWidth 32 <<< 24) ||| x.setWidth 32 := by
  rw [word_eq_or, fieldLowByte, BitVec.setWidth_setWidth (by decide)]

end Sys2Proof

namespace Sys2Proof.Machine

variable {s t : State}

/-! ### Busy slots (R150) -/

theorem busy_zero_iff : s.busy 0 = true ↔ s.image.iph = .active := beq_iff_eq

theorem busy_iff_of_pos {slot : Nat} (hslot : 1 ≤ slot) : s.busy slot = true ↔ s.remap.rph = .active := by
  rw [State.busy, if_neg (Nat.ne_of_gt hslot), beq_iff_eq]

/-- With the image unit idle slot 0 may be loaded, whatever the remap unit does. -/
theorem not_busy_zero (h : s.image.iph = .idle) : s.busy 0 = false := by
  rw [State.busy, if_pos rfl, h]
  rfl

/-- With the remap unit idle every slot but 0 may be loaded, whatever the image unit does. -/
theorem not_busy_of_pos {slot : Nat} (hslot : 1 ≤ slot) (h : s.remap.rph = .idle) : s.busy slot = false := by
  rw [State.busy, if_neg (Nat.ne_of_gt hslot), h]
  rfl

/-- Reset leaves both units idle, so no slot is busy after it (R50). -/
theorem State.toReset_busy (s : State) (slot : Nat) : s.toReset.busy slot = false :=
  ite_self false

theorem ne_of_busy {slot slot' : Nat} (h : s.busy slot = true) (h' : s.busy slot' = false) : slot ≠ slot' := by
  rintro rfl
  rw [h] at h'
  cases h'

/-! ### The live commands (R151 to R153) -/

section
variable {p r g b : Byte} (hlive : s.err.kind = .noError)
include hlive

theorem execPalsel_refused (h : 129 < p.toNat ∨ s.busy p.toNat = true) :
    exec (.palsel p) s = raise .commandError (encode (.palsel p)) s := by
  refine (unlessFaulted_live hlive _).trans ?_
  rw [← ite_or, if_pos h]

theorem execPalsel_opens (hp : p.toNat ≤ 129) (hb : s.busy p.toNat = false) :
    exec (.palsel p) s = .next { s with
      pal := { s.pal with
        psel := p, pidx := 0, pselv := true
        present := setPresent s.pal.present p.toNat false } } := by
  refine (unlessFaulted_live hlive _).trans ?_
  rw [if_neg hp.not_gt, if_neg (ne_true_of_eq_false hb)]

theorem execPalw_refused (h : s.pal.pselv = false ∨ s.busy s.pal.psel.toNat = true) :
    exec (.palw r g b) s = raise .commandError (encode (.palw r g b)) s := by
  refine (unlessFaulted_live hlive _).trans ?_
  rw [← ite_or, if_pos h]

theorem execPalw_stores (hopen : s.pal.pselv = true) (hb : s.busy s.pal.psel.toNat = false)
    (hsel : s.pal.psel.toNat ≤ 129) :
    exec (.palw r g b) s = .next { s with pal := palStored s.pal (colour r g b) } := by
  refine (unlessFaulted_live hlive _).trans ?_
  rw [if_neg (by simp [hopen]), if_neg (ne_true_of_eq_false hb)]
  exact if_pos (Nat.lt_succ_of_le hsel)

theorem execPalclr_refused (h : 129 < p.toNat ∨ s.busy p.toNat = true) :
    exec (.palclr p) s = raise .commandError (encode (.palclr p)) s := by
  refine (unlessFaulted_live hlive _).trans ?_
  rw [← ite_or, if_pos h]

theorem execPalclr_clears (hp : p.toNat ≤ 129) (hb : s.busy p.toNat = false) :
    exec (.palclr p) s = .next { s with
      pal := { s.pal with
        present := setPresent s.pal.present p.toNat false
        pselv := if s.pal.pselv = true ∧ s.pal.psel = p then false else s.pal.pselv } } := by
  refine (unlessFaulted_live hlive _).trans ?_
  rw [if_neg hp.not_gt, if_neg (ne_true_of_eq_false hb)]

end

/-! ### What a step leaves of a busy slot (R154 b) -/

/-- A slot has the same presence and the same colours in both states. -/
structure SameSlot (slot : Nat) (s t : State) : Prop where
  present : t.isPresent slot = s.isPresent slot
  entries : ∀ e, e < 16 → palEntry t.pal.palmem slot e = palEntry s.pal.palmem slot e

theorem SameSlot.of_pal_eq {slot : Nat} (h : t.pal = s.pal) : SameSlot slot s t :=
  ⟨State.isPresent_congr h slot, fun _ _ => by rw [h]⟩

/-- Marking another slot absent (R151, R153). -/
theorem SameSlot.of_cleared {slot slot' : Nat} (hne : slot ≠ slot') (hslot' : slot' ≤ 129)
    (hpresent : t.pal.present = setPresent s.pal.present slot' false) (hmem : t.pal.palmem = s.pal.palmem) :
    SameSlot slot s t :=
  ⟨(isPresent_setPresent hslot' hpresent slot).trans (if_neg hne), fun _ _ => by rw [hmem]⟩

/-- Storing an entry of another slot (R152). -/
theorem SameSlot.of_palStored {slot : Nat} (c : Colour) (hne : slot ≠ s.pal.psel.toNat)
    (hsel : s.pal.psel.toNat ≤ 129) :
    SameSlot slot s { s with pal := palStored s.pal c } := by
  obtain ⟨hmem, -, hpresent⟩ := palStored_cases s.pal c
  refine ⟨?_, fun e he => ?_⟩
  · obtain ⟨-, hpresent, -⟩ | ⟨-, hpresent, -⟩ := hpresent
    · exact (isPresent_setPresent hsel hpresent slot).trans (if_neg hne)
    · exact congrArg (·.getLsbD slot) hpresent
  · simp only [hmem]
    rw [palEntry_write _ _ s.pal.pidx.isLt he, if_neg fun h => hne h.1]

/-- A palette command changes no busy slot: the one it targets is not busy when it has its effect (R150). -/
theorem paletteCommand_keeps_busy_slot {i : Instr} {slot : Nat} (hi : isPaletteCommand i = true)
    (h : exec i s = .next t) (hbusy : s.busy slot = true) : SameSlot slot s t := by
  obtain ⟨p, rfl⟩ | ⟨r, g, b, rfl⟩ | ⟨p, rfl⟩ := isPaletteCommand_iff.1 hi
  · obtain hno | ⟨-, hp, hb, rfl⟩ := execPalsel_next h
    · exact .of_pal_eq hno.pal_eq
    · exact .of_cleared (ne_of_busy hbusy hb) hp rfl rfl
  · obtain hno | ⟨-, -, hb, hsel, rfl⟩ := execPalw_next h
    · exact .of_pal_eq hno.pal_eq
    · exact .of_palStored _ (ne_of_busy hbusy hb) hsel
  · obtain hno | ⟨-, hp, hb, rfl⟩ := execPalclr_next h
    · exact .of_pal_eq hno.pal_eq
    · exact .of_cleared (ne_of_busy hbusy hb) hp rfl rfl

/-- A command that leaves a busy slot busy leaves it alone: only `RESET` and the palette commands write the store. -/
theorem exec_keeps_busy_slot {i : Instr} {slot : Nat} (h : exec i s = .next t) (hbusy : s.busy slot = true)
    (hstill : t.busy slot = true) : SameSlot slot s t := by
  cases hfamily : familyOf i with
  | control =>
    cases i with
    | nop => exact .of_pal_eq (by rw [quantizerCommand_frame (.inr rfl) h])
    | reset =>
      rw [next_inj h, State.toReset_busy] at hstill
      cases hstill
    | _ => cases hfamily
  | quantizer => exact .of_pal_eq (by rw [quantizerCommand_frame (.inl (beq_iff_eq.2 hfamily)) h])
  | glyph => exact .of_pal_eq (by rw [glyphCommand_frame (beq_iff_eq.2 hfamily) h])
  | palette => exact paletteCommand_keeps_busy_slot (beq_iff_eq.2 hfamily) h hbusy
  | image => exact .of_pal_eq (by rw [imageCommand_frame (beq_iff_eq.2 hfamily) h])
  | remap => exact .of_pal_eq (by rw [remapCommand_frame (beq_iff_eq.2 hfamily) h])

theorem step_keeps_busy_slot {slot : Nat} (h : step s = .next t) (hbusy : s.busy slot = true)
    (hstill : t.busy slot = true) : SameSlot slot s t := by
  obtain hdone | ⟨i, u, hrun, hexec⟩ := step_cases h
  · obtain rfl | ⟨rest, rfl | rfl | rfl | ⟨w, -, rfl⟩⟩ := serve_done hdone
    · exact .of_pal_eq rfl
    · exact .of_pal_eq rfl
    · exact absurd (hstill.symm.trans (State.toReset_busy s slot)) (by decide)
    · exact .of_pal_eq rfl
    · exact .of_pal_eq rfl
  · obtain ⟨w, rest, -, rfl, -⟩ := serve_run hrun
    have hkept := exec_keeps_busy_slot hexec hbusy hstill
    exact ⟨hkept.present, hkept.entries⟩

/-! ### No stop under the invariant (R154 c) -/

theorem StopsExactly.total {r : Result} {P : Fault → Prop} (h : StopsExactly r P) (hP : ∀ f, ¬ P f) :
    ∃ t, r = .next t := by
  cases r with
  | next t => exact ⟨t, rfl⟩
  | fault f => exact absurd ((h.2 f).1 rfl) (hP f)
  | refused x => exact absurd rfl (h.1 x)

/-- The palette a row uses is present where the reference palette is (R172). -/
theorem isPresent_activeSlot {py : Nat} (h : s.isPresent 1 = true) : s.isPresent (s.activeSlot py) = true := by
  unfold State.activeSlot
  split
  · next hoverride => exact hoverride
  · exact h

/-- Under the invariant a command reads only written entries and its load and its row exist, so it does not stop. -/
theorem exec_total_of_inv (hs : s.Inv) (i : Instr) : ∃ t, exec i s = .next t := by
  obtain ⟨⟨⟨hsize, hdata, -⟩, -, hremap, hload⟩, -, -, ⟨hwritten, -⟩, -⟩ := hs
  refine (exec_stops i s).total ?_
  rintro f ⟨-, ⟨a, b, -, -, -, hpres, -, -, e, he, hnone⟩ | ⟨idx, -, -, hactive, hidx, hnone⟩ |
    ⟨r, g, b, -, -, hopen, -, hsel⟩ | ⟨cc, -, -, hp, -, hrow⟩⟩
  · exact hwritten 0 (by decide) hpres e he hnone
  · obtain ⟨-, -, -, -, -, hpres⟩ := hremap hactive
    obtain ⟨-, hslot⟩ := activeSlot_bounds (s := s) (rowInFrame_lt s.remap)
    exact hwritten _ (Nat.lt_succ_of_le hslot) (isPresent_activeSlot hpres) idx.toNat (Nat.lt_succ_of_le hidx) hnone
  · exact absurd (hload hopen).1 hsel.not_ge
  · obtain ⟨-, -, hgh⟩ := hsize (by simp [hp])
    obtain ⟨-, hgrow, -⟩ := hdata hp
    omega

theorem step_total_of_inv (hs : s.Inv) : ∃ t, step s = .next t := by
  unfold step
  split
  · exact ⟨_, rfl⟩
  · next i u hrun =>
    obtain ⟨w, rest, -, rfl, -⟩ := serve_run hrun
    exact exec_total_of_inv (hs.with_input rest) i

end Sys2Proof.Machine

open Sys2Proof Sys2Proof.Machine

/-- Settles O22: each palette command tests its slot before its effect, and slot 0 and the others are busy with
different units. -/
theorem busySlotRefused : Obligations.BusySlotRefused := by
  intro s
  refine ⟨busy_zero_iff, fun slot hslot _ => busy_iff_of_pos hslot, fun p hlive _ hb => ?_,
    fun r g b hlive _ _ hb => execPalw_refused hlive (.inr hb), fun hlive hidle _ => ?_,
    fun r g b hlive hidle _ hopen hsel => ?_, fun p hlive _ hidle hpos hp => ?_,
    fun r g b hlive _ hidle hopen hpos hsel => ?_⟩
  · exact ⟨execPalsel_refused hlive (.inr hb), execPalclr_refused hlive (.inr hb)⟩
  · exact ⟨_, execPalsel_opens hlive (by decide) (not_busy_zero hidle), rfl⟩
  · have hzero : s.pal.psel.toNat = 0 := by rw [hsel]; rfl
    exact ⟨_, execPalw_stores hlive hopen (by rw [hzero]; exact not_busy_zero hidle) (by omega), rfl⟩
  · exact ⟨_, execPalsel_opens hlive hp (not_busy_of_pos hpos hidle), rfl⟩
  · exact ⟨_, execPalw_stores hlive hopen (not_busy_of_pos hpos hidle) hsel, rfl⟩

/-- Settles O23: the load is opened by clearing one presence bit. -/
theorem palselOpensLoad : Obligations.PalselOpensLoad := by
  intro p s
  refine ⟨word_fieldLowByte_eq_or 0x30 p, execPalsel_refused, fun hlive hp hb => ?_⟩
  exact ⟨_, execPalsel_opens hlive hp hb, rfl, rfl, rfl, rfl, fun slot _ => isPresent_setPresent hp rfl slot,
    fun _ _ _ _ => rfl⟩

/-- Settles O24: the store after a written entry, with the sixteenth apart. -/
theorem palwStoresEntry : Obligations.PalwStoresEntry := by
  intro r g b s
  refine ⟨word_fieldT_eq_or 0x31 r g b, execPalw_refused, fun hlive hopen hsel hb => ?_⟩
  obtain ⟨hmem, hpsel, hcases⟩ := palStored_cases s.pal (colour r g b)
  refine ⟨_, execPalw_stores hlive hopen hb hsel, rfl, hpsel, fun slot e _ he => ?_, fun hlast => ?_,
    fun hnotlast => ?_⟩
  · simp only [hmem]
    exact palEntry_write _ _ s.pal.pidx.isLt he
  · obtain ⟨-, hpresent, hclosed, hidx⟩ := hcases.resolve_right fun h => h.1 hlast
    exact ⟨hclosed, hidx, fun slot _ => isPresent_setPresent hsel hpresent slot⟩
  · obtain ⟨-, hpresent, hstays, hidx⟩ := hcases.resolve_left fun h => hnotlast h.1
    have hne : s.pal.pidx.toNat ≠ 15 := fun h => hnotlast (BitVec.eq_of_toNat_eq h)
    refine ⟨hstays.trans hopen, ?_, fun slot _ => congrArg (·.getLsbD slot) hpresent⟩
    simp only [hidx]
    exact toNat_add_one _ (by omega)

/-- Settles O25: the slot's presence bit is cleared, and an open load is abandoned where it is of that slot. -/
theorem palclrClearsSlot : Obligations.PalclrClearsSlot := by
  intro p s
  refine ⟨word_fieldLowByte_eq_or 0x32 p, execPalclr_refused, fun hlive hp hb => ?_⟩
  exact ⟨_, execPalclr_clears hlive hp hb, rfl, rfl, rfl, fun hopen hsel => if_pos ⟨hopen, hsel⟩,
    fun hne => if_neg fun h => hne h.2, fun hclosed => ite_eq_left_iff.2 fun _ => hclosed,
    fun slot _ => isPresent_setPresent hp rfl slot, fun _ _ _ _ => rfl⟩

/-- Settles O26: the slots an active unit reads are busy, and a step that leaves a slot busy leaves it alone. -/
theorem activeUnitProtectsPalette : Obligations.ActiveUnitProtectsPalette := by
  intro s t h
  refine ⟨fun hs ht => ?_, fun hs ht slot hslot _ => ?_⟩
  · have hkept := step_keeps_busy_slot h (busy_zero_iff.2 hs) (busy_zero_iff.2 ht)
    exact ⟨hkept.present, hkept.entries⟩
  · have hkept := step_keeps_busy_slot h ((busy_iff_of_pos hslot).2 hs) ((busy_iff_of_pos hslot).2 ht)
    exact ⟨hkept.present, hkept.entries⟩

/-- Settles O51: the invariant rules out each of the four stops of `exec_stops`. -/
theorem invariantStatesAlwaysStep : Obligations.InvariantStatesAlwaysStep :=
  fun _ => step_total_of_inv
end

section
/-! SUPPORT. The image unit command by command: the errors of `IBEGIN` and `IPIX`, the items of a good `IBEGIN`, the byte
of a pixel pair as it is emitted, and what one advance in raster order does to the counters. -/

namespace Sys2Proof.Machine

/-! ### What `IBEGIN` emits (R161) -/

theorem palColours_of_entries {m : Memory 24} {slot : Nat} {c : Nat → Colour}
    (h : ∀ e, e < 16 → palEntry m slot e = some (c e)) : palColours m slot = some ((List.range 16).map c) := by
  rw [palColours_eq_some, List.map_map]
  exact List.map_congr_left fun e he => h e (List.mem_range.1 he)

/-- A height of one byte is emitted as it is (R160 check 4, R161). -/
theorem setWidth_of_imageHeight {b : BitVec 16} (h : b.toNat ≤ 255) : (b.setWidth 8).setWidth 24 = b.setWidth 24 :=
  BitVec.eq_of_toNat_eq (by simp only [BitVec.toNat_setWidth]; omega)

/-- The palette block, entry by entry, and then the eight header values, as items (R161). -/
theorem imageItems_eq (c : Nat → Colour) (a : Byte) {b : BitVec 16} (hb : b.toNat ≤ 255) :
    imageItems ((List.range 16).map c) a (b.setWidth 8) =
      (List.range 16).map (fun e => palItem (q565 (redOf (c e)) (greenOf (c e)) (blueOf (c e)))) ++
      [{ ch := .pix, d := a.setWidth 24 }, { ch := .pix, d := b.setWidth 24 }, { ch := .pix, d := 1 },
       { ch := .pix, d := 0 }, { ch := .pix, d := 0 }, { ch := .pix, d := 0 },
       { ch := .pix, d := Config.modeIndexed.setWidth 24 }, { ch := .pix, d := 0 }] := by
  rw [imageItems, List.map_map, ← setWidth_of_imageHeight hb]
  rfl

/-! ### The byte of a pixel pair, as an item (R163) -/

theorem packPair_eq_append (px1 px2 : BitVec 4) : packPair px1 px2 = px1 ++ px2 := by
  have h := BitVec.setWidth_append_eq_shiftLeft_setWidth_or (b := px1) (b' := px2) (w'' := 4 + 4)
  rw [BitVec.setWidth_eq] at h
  exact h.symm

theorem pairItem_eq (px1 : BitVec 4) {idx : Byte} (hidx : idx.toNat ≤ 15) :
    byteItem .pix (packPair px1 (idx.setWidth 4)) =
      { ch := .pix, d := (px1.setWidth 24 <<< 4) ||| idx.setWidth 24 } := by
  have hlow : (idx.setWidth 4).setWidth 24 = idx.setWidth 24 := by
    conv_rhs => rw [← setWidth_of_pixelIndex hidx, BitVec.setWidth_setWidth (by decide)]
  rw [byteItem, packPair_eq_append, BitVec.setWidth_append_eq_shiftLeft_setWidth_or, hlow]

/-! ### One pixel further in raster order (R163) -/

/-- The image unit `v` stands one pixel after `u`: in the row, at the start of the next row, or past the last pixel. -/
structure RasterStep (u v : ImageUnit) : Prop where
  width : v.iw = u.iw
  height : v.ih = u.ih
  latch : v.pxl1 = u.pxl1
  inRow : u.ix.toNat + 1 < u.iw.toNat → v.ix.toNat = u.ix.toNat + 1 ∧ v.iy = u.iy ∧ v.iph = u.iph
  nextRow : u.ix.toNat + 1 = u.iw.toNat → u.iy.toNat + 1 < u.ih.toNat →
    v.ix = 0 ∧ v.iy.toNat = u.iy.toNat + 1 ∧ v.iph = u.iph
  ends : u.ix.toNat + 1 = u.iw.toNat → u.iy.toNat + 1 = u.ih.toNat → v.ix = 0 ∧ v.iy = 0 ∧ v.iph = .idle

theorem imageAdvance_rasterStep (u : ImageUnit) : RasterStep u (imageAdvance u) := by
  obtain ⟨hx, heq⟩ | ⟨hx, hy, heq⟩ | ⟨hx, hy, heq⟩ := imageAdvance_cases u
  · rw [heq]
    exact ⟨rfl, rfl, rfl, fun h => ⟨toNat_succ_of_lt (Nat.lt_of_succ_lt h), rfl, rfl⟩,
      fun h => absurd h hx, fun h => absurd h hx⟩
  · rw [heq]
    exact ⟨rfl, rfl, rfl, fun h => absurd hx h.ne,
      fun _ h => ⟨rfl, toNat_succ_of_lt (Nat.lt_of_succ_lt h), rfl⟩, fun _ h => absurd h hy⟩
  · rw [heq]
    exact ⟨rfl, rfl, rfl, fun h => absurd hx h.ne, fun _ h => absurd hy h.ne, fun _ _ => ⟨rfl, rfl, rfl⟩⟩

/-- The low bit of a number is its parity. -/
theorem getLsbD_zero_eq_true_iff {n : Nat} {x : BitVec n} : x.getLsbD 0 = true ↔ x.toNat % 2 = 1 := by
  rw [BitVec.getLsbD, Nat.testBit_zero, decide_eq_true_iff]

theorem getLsbD_zero_eq_false_iff {n : Nat} {x : BitVec n} : x.getLsbD 0 = false ↔ x.toNat % 2 = 0 := by
  rw [← Bool.not_eq_true, getLsbD_zero_eq_true_iff]
  exact Nat.mod_two_ne_one

/-! ### The live commands (R160, R163) -/

section
variable {s : State} {a : Byte} {b : BitVec 16} {idx : Byte} (hlive : s.err.kind = .noError)
include hlive

theorem execIbegin_refused (h : s.image.iph = .active ∨ s.isPresent 0 = false) :
    exec (.ibegin a b) s = raise .commandError (encode (.ibegin a b)) s := by
  refine (unlessFaulted_live hlive _).trans ?_
  rw [← ite_or, if_pos h]

/-- Both size checks of `IBEGIN` raise the same error (R160). -/
theorem execIbegin_badSize (hidle : s.image.iph = .idle) (hpres : s.isPresent 0 = true)
    (hsize : a.getLsbD 0 = true ∨ 255 < b.toNat) :
    exec (.ibegin a b) s = raise .encodingError (pairInfo b a) s := by
  refine (unlessFaulted_live hlive _).trans ?_
  rw [if_neg (by simp [hidle]), if_neg (by simp [hpres]), ← ite_or, Config.maxIH,
    if_pos (hsize.imp_left getLsbD_zero_eq_true_iff.1)]

theorem execIbegin_opens (hidle : s.image.iph = .idle) (hpres : s.isPresent 0 = true) (ha : a.getLsbD 0 = false)
    (hb : b.toNat ≤ 255) {colours : List Colour} (hcolours : palColours s.pal.palmem 0 = some colours) :
    exec (.ibegin a b) s =
      .next ({ s with image := imageOpened a b }.emit (imageItems colours a (b.setWidth 8))) := by
  have heven := getLsbD_zero_eq_false_iff.1 ha
  refine (unlessFaulted_live hlive _).trans ?_
  rw [if_neg (by simp [hidle]), if_neg (by simp [hpres]), if_neg (by omega), Config.maxIH, if_neg hb.not_gt,
    hcolours]

theorem execIpix_idle (hidle : s.image.iph = .idle) :
    exec (.ipix idx) s = raise .commandError (encode (.ipix idx)) s :=
  (unlessFaulted_live hlive _).trans (if_pos hidle)

theorem execIpix_badIndex (hactive : s.image.iph = .active) (hidx : 15 < idx.toNat) :
    exec (.ipix idx) s = raise .encodingError (pairInfo (s.image.iy.setWidth 16) s.image.ix) s := by
  refine (unlessFaulted_live hlive _).trans ?_
  rw [if_neg (by simp [hactive]), if_pos hidx]

end

end Sys2Proof.Machine

open Sys2Proof Sys2Proof.Machine

/-- Settles O27: the checks in their order, and the items of the palette block and of the header once all pass. -/
theorem ibeginEmitsPaletteAndHeader : Obligations.IbeginEmitsPaletteAndHeader := by
  intro a b s
  refine ⟨word_fieldD_eq_or 0x40 a b, execIbegin_refused, execIbegin_badSize,
    fun hlive hidle hpres ha hb c hc => ?_⟩
  rw [execIbegin_opens hlive hidle hpres ha hb (palColours_of_entries hc), imageItems_eq c a hb, imageOpened,
    BitVec.setWidth_eq_extractLsb' (v := 16) (w := 8) (by decide), State.emit, List.append_assoc]
  rfl

/-- Settles O28: the pixel by the parity of `IX`, and then one step in raster order. -/
theorem ipixPacksAndAdvances : Obligations.IpixPacksAndAdvances := by
  intro idx s
  refine ⟨word_fieldLowByte_eq_or 0x41 idx, execIpix_idle, fun hlive hactive hidx => ?_,
    fun hlive hactive hidx _ _ => ?_⟩
  · rw [execIpix_badIndex hlive hactive hidx, pairInfo, BitVec.setWidth_setWidth (by decide)]
    rfl
  · rw [getLsbD_zero_eq_true_iff, getLsbD_zero_eq_false_iff, ← hactive]
    rcases Nat.mod_two_eq_zero_or_one s.image.ix.toNat with heven | hodd
    · have hstep := imageAdvance_rasterStep { s.image with pxl1 := idx.setWidth 4 }
      exact ⟨_, execIpix_even hlive hactive hidx heven, rfl, hstep.width, hstep.height,
        fun _ => ⟨rfl, hstep.latch.trans (BitVec.setWidth_eq_extractLsb' (v := 8) (w := 4) (by decide))⟩,
        fun hodd => by omega, hstep.inRow, hstep.nextRow, hstep.ends⟩
    · have hstep := imageAdvance_rasterStep s.image
      have hbyte := congrArg (fun item => s.out ++ [item]) (pairItem_eq s.image.pxl1 hidx)
      exact ⟨_, execIpix_odd hlive hactive hidx hodd, rfl, hstep.width, hstep.height, fun heven => by omega,
        fun _ => ⟨hbyte, hstep.latch⟩, hstep.inRow, hstep.nextRow, hstep.ends⟩
end

section
/-! SUPPORT. The remap unit command by command: the errors of `RBEGIN` and `RPIX`, the sheet a good `RBEGIN` opens, the
palette a row uses in every frame, and what one advance in raster order does to the counters. -/

namespace Sys2Proof.Machine

/-! ### One pixel further in raster order (R173) -/

section
variable {u : RemapUnit}

theorem remapAdvance_rh (u : RemapUnit) : (remapAdvance u).rh = u.rh := by
  obtain ⟨-, heq⟩ | ⟨-, -, heq⟩ | ⟨-, -, heq⟩ := remapAdvance_cases u <;> rw [heq]

theorem remapAdvance_inRow (hx : u.rx.toNat + 1 < 160) :
    (remapAdvance u).rx.toNat = u.rx.toNat + 1 ∧ (remapAdvance u).ry = u.ry ∧ (remapAdvance u).rph = u.rph := by
  rw [remapAdvance, Config.sheetW, if_neg hx.ne]
  exact ⟨toNat_succ_of_lt (y := 160) (Nat.lt_of_succ_lt hx), rfl, rfl⟩

theorem remapAdvance_nextRow (hx : u.rx.toNat + 1 = 160) (hy : u.ry.toNat + 1 < u.rh.toNat) :
    (remapAdvance u).rx = 0 ∧ (remapAdvance u).ry.toNat = u.ry.toNat + 1 ∧ (remapAdvance u).rph = u.rph := by
  rw [remapAdvance, Config.sheetW, if_pos hx, if_neg hy.ne]
  exact ⟨rfl, toNat_succ_of_lt (Nat.lt_of_succ_lt hy), rfl⟩

theorem remapAdvance_ends (hx : u.rx.toNat + 1 = 160) (hy : u.ry.toNat + 1 = u.rh.toNat) :
    (remapAdvance u).rx = 0 ∧ (remapAdvance u).ry = 0 ∧ (remapAdvance u).rph = .idle := by
  rw [remapAdvance, Config.sheetW, if_pos hx, if_pos hy]
  exact ⟨rfl, rfl, rfl⟩

end

/-! ### The palette of a row (R171, R172) -/

/-- The frame a row lies in has no part in the choice of its palette, nor has the position in the row. -/
theorem activeSlot_of_same_row (s : State) {u : RemapUnit} (hrow : u.ry.toNat % 128 = s.remap.ry.toNat % 128) :
    { s with remap := u }.activeSlot (rowInFrame u) = s.activeSlot (rowInFrame s.remap) :=
  congrArg s.activeSlot hrow

/-! ### The live commands (R170, R172) -/

section
variable {s t : State} {a : Byte} {b : BitVec 16} {idx : Byte} (hlive : s.err.kind = .noError)
include hlive

theorem execRbegin_active (hactive : s.remap.rph = .active) :
    exec (.rbegin a b) s = raise .commandError (encode (.rbegin a b)) s :=
  (unlessFaulted_live hlive _).trans (if_pos hactive)

theorem execRbegin_noReference (hidle : s.remap.rph = .idle) (habsent : s.isPresent 1 = false) :
    exec (.rbegin a b) s = raise .configError 1 s := by
  refine (unlessFaulted_live hlive _).trans ?_
  rw [if_neg (by simp [hidle]), if_pos habsent]

theorem execRbegin_badSize (hidle : s.remap.rph = .idle) (hpres : s.isPresent 1 = true)
    (hsize : a.toNat ≠ 160 ∨ b = 0 ∨ b.toNat % 128 ≠ 0) :
    exec (.rbegin a b) s = raise .preconditionError (pairInfo b a) s := by
  refine (unlessFaulted_live hlive _).trans ?_
  rw [if_neg (by simp [hidle]), if_neg (by simp [hpres])]
  exact if_pos hsize

theorem execRbegin_opens (hidle : s.remap.rph = .idle) (hpres : s.isPresent 1 = true) (ha : a.toNat = 160)
    (hb : b ≠ 0) (hframes : b.toNat % 128 = 0) :
    exec (.rbegin a b) s = .next { s with remap := { rh := b, rph := .active, rx := 0, ry := 0 } } := by
  refine (unlessFaulted_live hlive _).trans ?_
  rw [if_neg (by simp [hidle]), if_neg (by simp [hpres])]
  exact if_neg (not_or.2 ⟨not_not.2 ha, not_or.2 ⟨hb, not_not.2 hframes⟩⟩)

theorem execRpix_idle (hidle : s.remap.rph = .idle) :
    exec (.rpix idx) s = raise .commandError (encode (.rpix idx)) s :=
  (unlessFaulted_live hlive _).trans (if_pos hidle)

theorem execRpix_badIndex (hactive : s.remap.rph = .active) (hidx : 15 < idx.toNat) :
    exec (.rpix idx) s = raise .encodingError (pairInfo s.remap.ry s.remap.rx) s := by
  refine (unlessFaulted_live hlive _).trans ?_
  rw [if_neg (by simp [hactive]), if_pos hidx]

/-- Past its checks `RPIX` goes on exactly where the entry it reads has been written, and then it emits that entry's
masked colour and advances. -/
theorem execRpix_next_iff (hactive : s.remap.rph = .active) (hidx : idx.toNat ≤ 15) :
    exec (.rpix idx) s = .next t ↔
      ∃ c, palEntry s.pal.palmem (s.activeSlot (rowInFrame s.remap)) idx.toNat = some c ∧
        t = { s with remap := remapAdvance s.remap }.emit [rgbItem (qmask (redOf c) (greenOf c) (blueOf c))] := by
  refine (Eq.congr_left (unlessFaulted_live hlive _)).trans ?_
  rw [if_neg (by simp [hactive]), if_neg hidx.not_gt]
  cases palEntry s.pal.palmem (s.activeSlot (rowInFrame s.remap)) idx.toNat with
  | some c => simp [eq_comm]
  | none => simp

end

end Sys2Proof.Machine

open Sys2Proof Sys2Proof.Machine

/-- Settles O30: the checks in their order, and the sheet that is open once all pass. -/
theorem rbeginOpensSheet : Obligations.RbeginOpensSheet := by
  intro a b s
  have hzero : b.toNat = 0 ↔ b = 0 := BitVec.toNat_eq (y := 0).symm
  rw [ne_eq b.toNat, hzero]
  exact ⟨word_fieldD_eq_or 0x50 a b, execRbegin_active, execRbegin_noReference, execRbegin_badSize, execRbegin_opens⟩

/-- Settles O31: the entry of the row's palette, masked, and then one step in raster order. -/
theorem rpixLooksUpMasksAndAdvances : Obligations.RpixLooksUpMasksAndAdvances := by
  intro idx s
  refine ⟨word_fieldLowByte_eq_or 0x51 idx, execRpix_idle, execRpix_badIndex,
    fun hlive hactive hidx _ _ slot c hslot hc => ?_⟩
  subst hslot
  rw [← hactive]
  exact ⟨_, (execRpix_next_iff hlive hactive hidx).2 ⟨c, hc, rfl⟩, rfl, rfl, remapAdvance_rh _, remapAdvance_inRow,
    remapAdvance_nextRow, remapAdvance_ends⟩

/-- Settles O32: the two states use the same palette, so each emits the masked colour of the same entry. -/
theorem overrideIndependentOfFrame : Obligations.OverrideIndependentOfFrame := by
  intro s t u idx hlive hidx hactive hactive' hrow h
  obtain ⟨c, hc, rfl⟩ := (execRpix_next_iff hlive hactive hidx).1 h
  rw [← activeSlot_of_same_row s hrow] at hc
  exact ⟨_, (execRpix_next_iff (s := { s with remap := u }) hlive hactive' hidx).2 ⟨c, hc, rfl⟩, rfl, _, rfl⟩
end

section
open Sys2Proof Sys2Proof.Machine

/-- Settles O33: `NOP` leaves a live and a faulted state as it is, and its format keeps no operand. -/
theorem nopChangesNothing : Obligations.NopChangesNothing :=
  ⟨rfl, execNop_eq, fun _ hf _ => decode_append_ne_ok rfl hf⟩
end

section
/-! SUPPORT. Which errors a command raises on a live block and with what context, and what a faulted block answers to
each host event. -/

namespace Sys2Proof.Machine

/-! ### What a command raises (R186 to R190) -/

/-- Causes (b), (c) and (d) of `CommandError`, command by command (R189). -/
def CommandErrorCause (s : State) : Instr → Prop
  | .nop => False
  | .reset => False
  | .q565 _ _ _ => False
  | .qmask _ _ _ => False
  | .gbegin _ _ => s.glyph.gph ≠ .gIdle
  | .gchr _ => s.glyph.gph = .gIdle
  | .geol => s.glyph.gph = .gIdle
  | .gend => s.glyph.gph = .gIdle
  | .palsel p => 129 < p.toNat ∨ s.busy p.toNat = true
  | .palw _ _ _ => s.pal.pselv = false ∨ s.busy s.pal.psel.toNat = true
  | .palclr p => 129 < p.toNat ∨ s.busy p.toNat = true
  | .ibegin _ _ => s.image.iph = .active ∨ s.isPresent 0 = false
  | .ipix _ => s.image.iph = .idle
  | .rbegin _ _ => s.remap.rph = .active
  | .rpix _ => s.remap.rph = .idle

/-- The errors a command may raise, by kind, each with the value `ERRINFO` then holds (R186 to R189). -/
def ErrorContext (i : Instr) (s : State) (info : Word) : ErrKind → Prop
  | .noError => False
  | .parseError =>
    (∃ a b, i = .gbegin a b ∧ info = 1) ∨ ((i = .geol ∨ i = .gend ∨ ∃ cc, i = .gchr cc) ∧ info = s.glyph.line)
  | .encodingError =>
    (∃ a b, i = .ibegin a b ∧ info = pairInfo b a) ∨
    (∃ idx, i = .ipix idx ∧ info = (s.image.iy.setWidth 32 <<< 16) ||| s.image.ix.setWidth 32) ∨
    (∃ idx, i = .rpix idx ∧ info = pairInfo s.remap.ry s.remap.rx)
  | .configError => ∃ a b, i = .rbegin a b ∧ info = 1
  | .preconditionError => ∃ a b, i = .rbegin a b ∧ info = pairInfo b a
  | .commandError => CommandErrorCause s i ∧ info = encode i

/-- A meaning that goes on does so with no error recorded, or with an error that `E` allows and no other effect. -/
def RaisesOnly (s : State) (E : Word → ErrKind → Prop) (r : Result) : Prop :=
  ∀ t, r = .next t → t.err.kind = .noError ∨ ∃ k info, E info k ∧ t = s.recordError k info

section
variable {s t : State} {E : Word → ErrKind → Prop} {k : ErrKind} {info : Word} {x y : Result}

theorem RaisesOnly.next (h : t.err.kind = .noError) : RaisesOnly s E (.next t) :=
  fun _ hu => .inl (next_inj hu ▸ h)

theorem RaisesOnly.fault (f : Fault) : RaisesOnly s E (.fault f) :=
  nofun

theorem RaisesOnly.raise (h : E info k) : RaisesOnly s E (raise k info s) :=
  fun _ ht => .inr ⟨k, info, h, raise_next ht⟩

theorem RaisesOnly.ite {c : Prop} [Decidable c] (hx : RaisesOnly s E x) (hy : RaisesOnly s E y) :
    RaisesOnly s E (if c then x else y) := by
  split
  · exact hx
  · exact hy

/-- A check raises its error only where it fails. -/
theorem RaisesOnly.check {c : Prop} [Decidable c] (h : c → E info k) (hy : RaisesOnly s E y) :
    RaisesOnly s E (if c then Machine.raise k info s else y) := by
  split
  · next hc => exact .raise (h hc)
  · exact hy

theorem RaisesOnly.live (hlive : s.err.kind = .noError) (h : RaisesOnly s E x) : RaisesOnly s E (unlessFaulted s x) := by
  rwa [unlessFaulted_live hlive]

end

section
variable {s t : State} (hlive : s.err.kind = .noError)
include hlive

/-- In a header line the one error is that of the line (R122, R124 to R127). -/
theorem gchrHeader_raisesOnly {E : Word → ErrKind → Prop} (hline : E s.glyph.line .parseError) (cc : CharCode) :
    RaisesOnly s E (gchrHeader cc s) := by
  unfold gchrHeader
  split
  · exact .ite (.next hlive) (.check (fun _ => hline) (.next hlive))
  · refine .ite (.next hlive) ?_
    split
    · exact .next hlive
    · exact .raise hline
  · unfold gchrHexDigit
    split
    · exact .raise hline
    · exact .check (fun _ => hline) (.next hlive)
  · exact .next hlive

theorem geolHeader_raisesOnly {E : Word → ErrKind → Prop} (hline : E s.glyph.line .parseError) :
    RaisesOnly s E (geolHeader s) := by
  unfold geolHeader
  split
  · exact .raise hline
  · exact .raise hline
  · exact .next hlive
  · exact .next hlive

theorem execGchr_raisesOnly (cc : CharCode) : RaisesOnly s (ErrorContext (.gchr cc) s) (exec (.gchr cc) s) := by
  cases hp : s.glyph.gph with
  | gIdle =>
    rw [execGchr_idle hlive hp]
    exact .raise ⟨hp, rfl⟩
  | gHdr =>
    rw [execGchr_header hlive hp]
    exact gchrHeader_raisesOnly hlive (.inr ⟨.inr (.inr ⟨cc, rfl⟩), rfl⟩) cc
  | gData =>
    rw [execGchr_data hlive hp]
    exact .ite (.ite (.next hlive) (.fault _)) (.next hlive)

theorem execGeol_raisesOnly : RaisesOnly s (ErrorContext .geol s) (exec .geol s) := by
  have hline : ErrorContext .geol s s.glyph.line .parseError := .inr ⟨.inl rfl, rfl⟩
  cases hp : s.glyph.gph with
  | gIdle =>
    rw [execGeol_idle hlive hp]
    exact .raise ⟨hp, rfl⟩
  | gHdr =>
    rw [execGeol_header hlive hp]
    exact geolHeader_raisesOnly hlive hline
  | gData =>
    rw [execGeol_data hlive hp]
    exact .check (fun _ => hline) (.ite (.next hlive) (.next hlive))

theorem execGend_raisesOnly : RaisesOnly s (ErrorContext .gend s) (exec .gend s) := by
  have hline : ErrorContext .gend s s.glyph.line .parseError := .inr ⟨.inr (.inl rfl), rfl⟩
  refine .live hlive ?_
  split
  · next hp => exact .raise ⟨hp, rfl⟩
  · exact .raise hline
  · exact .check (fun _ => hline) (.next hlive)

theorem execIbegin_raisesOnly (a : Byte) (b : BitVec 16) :
    RaisesOnly s (ErrorContext (.ibegin a b) s) (exec (.ibegin a b) s) := by
  have hsize : ErrorContext (.ibegin a b) s (pairInfo b a) .encodingError := .inl ⟨a, b, rfl, rfl⟩
  refine .live hlive (.check (fun hactive => ⟨.inl hactive, rfl⟩) (.check (fun habsent => ⟨.inr habsent, rfl⟩)
    (.check (fun _ => hsize) (.check (fun _ => hsize) ?_))))
  split
  · exact .next hlive
  · exact .fault _

/-- `IY` is zero-extended to its field in two steps, which is one (R190). -/
theorem execIpix_raisesOnly (idx : Byte) : RaisesOnly s (ErrorContext (.ipix idx) s) (exec (.ipix idx) s) := by
  have hpixel : ErrorContext (.ipix idx) s (pairInfo (s.image.iy.setWidth 16) s.image.ix) .encodingError :=
    .inr (.inl ⟨idx, rfl, by rw [pairInfo, BitVec.setWidth_setWidth (by decide)]⟩)
  exact .live hlive (.check (fun hidle => ⟨hidle, rfl⟩) (.check (fun _ => hpixel) (.ite (.next hlive) (.next hlive))))

theorem execRpix_raisesOnly (idx : Byte) : RaisesOnly s (ErrorContext (.rpix idx) s) (exec (.rpix idx) s) := by
  refine .live hlive (.check (fun hidle => ⟨hidle, rfl⟩) (.check (fun _ => .inr (.inr ⟨idx, rfl, rfl⟩)) ?_))
  split
  · exact .next hlive
  · exact .fault _

/-- A live command raises no error but those of its rules, and what raises has no other effect. -/
theorem exec_raisesOnly (i : Instr) : RaisesOnly s (ErrorContext i s) (exec i s) := by
  cases i with
  | nop => exact .live hlive (.next hlive)
  | reset => exact .next rfl
  | q565 r g b => exact .live hlive (.next hlive)
  | qmask r g b => exact .live hlive (.next hlive)
  | gbegin a b =>
    have hsize : ErrorContext (.gbegin a b) s 1 .parseError := .inl ⟨a, b, rfl, rfl⟩
    exact .live hlive (.check (fun hopen => ⟨hopen, rfl⟩) (.check (fun _ => hsize) (.check (fun _ => hsize)
      (.next hlive))))
  | gchr cc => exact execGchr_raisesOnly hlive cc
  | geol => exact execGeol_raisesOnly hlive
  | gend => exact execGend_raisesOnly hlive
  | palsel p =>
    exact .live hlive (.check (fun hp => ⟨.inl hp, rfl⟩) (.check (fun hb => ⟨.inr hb, rfl⟩) (.next hlive)))
  | palw r g b =>
    exact .live hlive (.check (fun hclosed => ⟨.inl hclosed, rfl⟩) (.check (fun hb => ⟨.inr hb, rfl⟩)
      (.ite (.next hlive) (.fault _))))
  | palclr p =>
    exact .live hlive (.check (fun hp => ⟨.inl hp, rfl⟩) (.check (fun hb => ⟨.inr hb, rfl⟩) (.next hlive)))
  | ibegin a b => exact execIbegin_raisesOnly hlive a b
  | ipix idx => exact execIpix_raisesOnly hlive idx
  | rbegin a b =>
    exact .live hlive (.check (fun hactive => ⟨hactive, rfl⟩) (.check (fun _ => ⟨a, b, rfl, rfl⟩)
      (.check (fun _ => ⟨a, b, rfl, rfl⟩) (.next hlive))))
  | rpix idx => exact execRpix_raisesOnly hlive idx

/-- A command that ends with an error recorded has raised it, with the context of its kind. -/
theorem exec_error {i : Instr} (h : exec i s = .next t) (herr : t.err.kind ≠ .noError) :
    ErrorContext i s t.err.info t.err.kind ∧ t = { s with err := t.err } := by
  obtain hnone | ⟨k, info, hcontext, rfl⟩ := exec_raisesOnly hlive i t h
  · exact absurd hnone herr
  · exact ⟨hcontext, rfl⟩

/-- The causes of `CommandError` are checked before everything else (R193). -/
theorem exec_commandError {i : Instr} (h : CommandErrorCause s i) : exec i s = raise .commandError (encode i) s := by
  cases i with
  | nop => cases h
  | reset => cases h
  | q565 r g b => cases h
  | qmask r g b => cases h
  | gbegin a b => exact execGbegin_notIdle hlive h
  | gchr cc => exact execGchr_idle hlive h
  | geol => exact execGeol_idle hlive h
  | gend => exact execGend_idle hlive h
  | palsel p => exact execPalsel_refused hlive h
  | palw r g b => exact execPalw_refused hlive h
  | palclr p => exact execPalclr_refused hlive h
  | ibegin a b => exact execIbegin_refused hlive h
  | ipix idx => exact execIpix_idle hlive h
  | rbegin a b => exact execRbegin_active hlive h
  | rpix idx => exact execRpix_idle hlive h

/-- `CommandError` is raised exactly where one of its causes holds (R189). -/
theorem exec_commandError_iff {i : Instr} (h : exec i s = .next t) :
    t.err.kind = .commandError ↔ CommandErrorCause s i := by
  constructor
  · intro hkind
    obtain ⟨hcontext, -⟩ := exec_error hlive h (by simp [hkind])
    rw [hkind] at hcontext
    exact hcontext.1
  · intro hcause
    rw [raise_next ((exec_commandError hlive hcause).symm.trans h), State.recordError_err]

end

/-! ### What a faulted block answers (R192, R195) -/

section
variable {s t : State}

theorem step_idle (h : s.input = []) : step s = .next s := by
  rw [step, serve, h]

theorem step_popItem {rest : List HostEvent} (h : s.input = .popItem :: rest) :
    step s = .next { s.popOne with input := rest } := by
  rw [step, serve, h]
  rfl

theorem step_readStatus {n : BitVec 1} {rest : List HostEvent} (h : s.input = .readStatus n :: rest) :
    step s = .next { s with input := rest } := by
  rw [step, serve, h]
  rfl

theorem step_command_discarded {w : Word} {rest : List HostEvent} (h : s.input = .command w :: rest)
    (hfault : s.err.kind ≠ .noError) (hw : w ≠ resetWord) : step s = .next { s with input := rest } := by
  rw [step, serve_command_discarded h hfault hw]

end

end Sys2Proof.Machine

open Sys2Proof Sys2Proof.Machine

/-- Settles O37: a live command that ends with an error recorded has raised it. -/
theorem faultsArePrecise : Obligations.FaultsArePrecise := by
  refine ⟨fun k info s => rfl, fun i s t hlive h herr => ?_⟩
  obtain ⟨-, hframe⟩ := exec_error hlive h herr
  exact ⟨hframe, (State.faulted_eq_true t).2 herr⟩

/-- Settles O38, from the context of each kind; the causes of `CommandError` are checked first. -/
theorem errorKindsAndContext : Obligations.ErrorKindsAndContext := by
  intro i s t hlive h
  have hcontext (k : ErrKind) (hk : k ≠ .noError) (hkind : t.err.kind = k) : ErrorContext i s t.err.info k :=
    hkind ▸ (exec_error hlive h (hkind ▸ hk)).1
  refine ⟨hcontext .parseError nofun, hcontext .encodingError nofun, hcontext .configError nofun,
    hcontext .preconditionError nofun, fun hkind => (hcontext .commandError nofun hkind).2, ?_⟩
  rw [exec_commandError_iff hlive h]
  cases i <;> simp [CommandErrorCause]

/-- Settles O40, event by event: only the pin and the `RESET` word come to a reset. -/
theorem onlyResetLeavesFault : Obligations.OnlyResetLeavesFault := by
  intro s t hfault h
  cases hinput : s.input with
  | nil =>
    rw [next_inj ((step_idle hinput).symm.trans h)]
    exact .inl rfl
  | cons e rest =>
    cases e with
    | command w =>
      by_cases hw : w = resetWord
      · subst hw
        rw [next_inj ((step_resetWord hinput).symm.trans h)]
        exact .inr ⟨⟨rest, .inr rfl⟩, rfl⟩
      · rw [next_inj ((step_command_discarded hinput hfault hw).symm.trans h)]
        exact .inl rfl
    | resetPin =>
      rw [next_inj ((step_resetPin hinput).symm.trans h)]
      exact .inr ⟨⟨rest, .inl rfl⟩, rfl⟩
    | popItem =>
      rw [next_inj ((step_popItem hinput).symm.trans h)]
      exact .inl rfl
    | readStatus n =>
      rw [next_inj ((step_readStatus hinput).symm.trans h)]
      exact .inl rfl

/-- Settles O39: the word is compared with the `RESET` word before it is decoded. -/
theorem faultedBlockDiscards : Obligations.FaultedBlockDiscards :=
  ⟨fun _ _ _ hfault hinput hw => step_command_discarded hinput hfault hw, fun _ _ _ => step_resetWord⟩

/-- Settles O55: every meaning but that of `RESET` is guarded. -/
theorem faultedMeaningsDiscard : Obligations.FaultedMeaningsDiscard :=
  fun _ _ => exec_faulted
end

section
/-! SUPPORT. The host's moves other than a command word: what a pop comes to with and without an item left to take. -/

namespace Sys2Proof.Machine

section
variable {s : State}

theorem State.popOne_of_lt (h : s.popped < s.out.length) : s.popOne = { s with popped := s.popped + 1 } := by
  rw [State.popOne, if_pos h]

theorem State.popOne_of_le (h : s.out.length ≤ s.popped) : s.popOne = s := by
  rw [State.popOne, if_neg (Nat.not_lt.2 h)]

end

end Sys2Proof.Machine

open Sys2Proof Sys2Proof.Machine

/-- Settles O8, move by move: a pop counts one more item taken while one is left, and does nothing otherwise. -/
theorem hostMovesServed : Obligations.HostMovesServed := by
  refine ⟨fun _ _ => step_resetPin, fun s rest hinput hlt => ?_, fun s rest hinput hle => ?_,
    fun _ _ _ => step_readStatus, fun _ => step_idle⟩
  · rw [step_popItem hinput, State.popOne_of_lt hlt]
  · rw [step_popItem hinput, State.popOne_of_le hle]
end
